-- ==== Sys2Proof/Word.lean ====
section
/-! DEFINITION. The bit-vector types of LUXDEC (00_scope.md R5, R6): the frame's byte, the frame word and the
cycle-command word. -/

namespace Sys2Proof

/-- One byte of a frame, an unsigned 8-bit value (30_encoding.md R32). -/
abbrev Byte := BitVec 8

/-- The 32-bit frame word, the value of the input port `in_frame` (30_encoding.md R34). -/
abbrev Frame := BitVec 32

/-- The 34-bit cycle-command word, one cycle's inputs written as one encoding (30_encoding.md R35). -/
abbrev CommandWord := BitVec 34

end Sys2Proof
end

