-- ==== Sys2Proof/Config.lean ====
section
/-! DEFINITION. What is fixed for the machine (00_scope.md R5, R9; 40_decode.md R56), and the one free value of the
model: what the host drives on the input ports at an edge that State does not describe. -/

namespace Sys2Proof.Config

/-- `LUX_LSB`, the lux of one unit of `lux_raw`: 0.0004375 lux, read as the exact rational 7/16000 (00_scope.md R9). -/
def luxLsb : Rat := 7 / 16000

/-- `LUX_FRAC_BITS`, the fraction bits of `lux_q` (00_scope.md R5). -/
def luxFracBits : Nat := 16

/-- The multiplier of the fixed-point conversion: `7 * 2^16 / 16000 = 3584 / 125` (40_decode.md R56). -/
def luxQNum : Nat := 3584

/-- The divisor of the fixed-point conversion (40_decode.md R56). -/
def luxQDen : Nat := 125

/-- FREE VALUE, DESIGN CHOICE (log 2): the cycle-command word that the host drives at the rising edge of this number
when State lists no input for it. The host drives the ports in every cycle (10_state.md R10) and the spec does not say
with what. It has no body, so no proof can rest on its value. -/
opaque hostDrives : Nat → CommandWord

end Sys2Proof.Config
end

