-- ==== Sys2Proof/Syntax.lean ====
section
/-! DEFINITION. The three cycle operations (30_encoding.md R37), the input ports of one edge (10_state.md R11), a row of
the opcode table, and the abstract syntax of a trace line (30_encoding.md R44). -/

namespace Sys2Proof

/-- The cycle operations, one constructor per row of the opcode table. The bits that an operation ignores
(30_encoding.md R40) are no operands of it. -/
inductive Instr where
  /-- RESET (70_reset_and_hazards.md R77). -/
  | reset
  /-- DECODE of the frame word on `in_frame` (40_decode.md R46). -/
  | decode (frame : Frame)
  /-- IDLE (40_decode.md R47). -/
  | idle
  deriving DecidableEq, Repr

/-- The values of the input ports at one rising edge of `clk` (10_state.md R11). -/
structure InputPorts where
  /-- `rst`: synchronous reset, active high. -/
  rst : BitVec 1
  /-- `in_valid`: 1 when `in_frame` carries a frame to decode. -/
  inValid : BitVec 1
  /-- `in_frame`: the frame, `frame[0]` in bits 31:24. -/
  inFrame : Frame
  deriving DecidableEq, Repr

/-- The operation kinds, to name a row of the opcode table. -/
inductive OpKind where
  | reset
  | decode
  | idle
  deriving DecidableEq, Repr

/-- A row of the opcode table: a word selects the row when its bits under `mask` are `pattern` (30_encoding.md R37). -/
structure OpcodeRow where
  kind : OpKind
  mask : CommandWord
  pattern : CommandWord
  deriving DecidableEq, Repr

/-- Why a number or a text is not one of the block's encodings. -/
inductive DecodeError where
  /-- The number does not fit the 34 bits of a cycle-command word (30_encoding.md R43; DESIGN CHOICE, log 10).
  Raised by `decodeCommandNumber`; safe. -/
  | wordTooWide
  deriving DecidableEq, Repr

/-- A trace line without its cycle number (30_encoding.md R44). -/
inductive TraceLine where
  /-- `RESET` -/
  | reset
  /-- `IDLE` -/
  | idle
  /-- `DECODE 0xHHHHHHHH` -/
  | decodeWord (frame : Frame)
  /-- `DECODE [0xHH, 0xHH, 0xHH, 0xHH]`, `frame[0]` first. -/
  | decodeBytes (bytes : List Byte)
  deriving DecidableEq, Repr

end Sys2Proof
end

