-- ==== Sys2Proof/Machine/State.lean ====
section
/-! DEFINITION. The state of LUXDEC as plain data: the one register `OUT` (10_state.md R13) and, as the model's own
fields, the host's side of the input ports. There is no memory, register file, program counter or control register
(10_state.md R15 to R19, 20_memory.md R27). -/

namespace Sys2Proof.Machine

/-- A decode result record, the contents of `OUT` when it is not `none` (10_state.md R13). -/
structure DecodeResult where
  /-- The frame's exponent (40_decode.md R50). -/
  exponent : BitVec 4
  /-- The full mantissa (40_decode.md R53). -/
  mantissa : BitVec 20
  /-- `mantissa << exponent` (40_decode.md R54). -/
  luxRaw : BitVec 35
  /-- Lux in unsigned fixed point, 16 fraction bits (40_decode.md R56). -/
  luxQ : BitVec 40
  /-- Frame byte 3, unmodified (40_decode.md R52). -/
  diag : BitVec 8
  deriving DecidableEq, Repr

/-- The output ports in one cycle (10_state.md R12). A data output that carries no value is `none` (R14, log 7). -/
structure Outputs where
  outValid : BitVec 1
  outExponent : Option (BitVec 4)
  outMantissa : Option (BitVec 20)
  outLuxRaw : Option (BitVec 35)
  outLuxQ : Option (BitVec 40)
  outDiag : Option (BitVec 8)
  deriving DecidableEq, Repr

/-- What the block samples at one rising edge (70_reset_and_hazards.md R83). -/
inductive EdgeSample where
  /-- The host holds the input ports stable around the edge. -/
  | stable (ports : InputPorts)
  /-- The host does not: the spec gives such a cycle no meaning (93_implementation_defined.md section 2; log 6). -/
  | unstable
  deriving DecidableEq, Repr

/-- The machine's state. -/
structure State where
  /-- The output register `OUT` (10_state.md R13). -/
  out : Option DecodeResult
  /-- The MODEL's own (log 1): what the host will drive at the coming edges, the next one first. -/
  inputs : List EdgeSample
  /-- The MODEL's own (log 2): the number of rising edges taken; it indexes `Config.hostDrives`. -/
  edge : Nat
  deriving DecidableEq, Repr

/-- The reasons a step can fault: none. No frame, command word or sequence of them makes the block trap, fault, hang or
signal an error (60_exceptions.md R64). -/
inductive Fault where
  deriving DecidableEq, Repr

/-- The reasons a step can be refused. -/
inductive Refusal where
  /-- Raised by an arm of `exec` for an instruction without a meaning; no arm is so in this model. Safe. -/
  | notModelled (mnemonic : String)
  /-- Raised by `step` at an edge where the input ports are not stable: the spec's own treatment is `refuse`
  (70_reset_and_hazards.md R83, 93_implementation_defined.md section 2; log 6). Safe. -/
  | unstableInputs
  deriving DecidableEq, Repr

/-- The machine after a RESET cycle: `OUT = none` (10_state.md R20), no input listed, no edge counted (logs 1, 2). -/
def State.reset : State := { out := none, inputs := [], edge := 0 }

/-- The machine at power-up, before the first RESET cycle: `OUT` is a draw, any value (10_state.md R21, log 5). -/
def State.powerUp (draw : Option DecodeResult) : State := { State.reset with out := draw }

end Sys2Proof.Machine
end

