-- ==== Sys2Proof/Machine/Flags.lean ====
section
/-! DEFINITION. The only status bit of LUXDEC is `out_valid`, the tag of `OUT` (10_state.md R14, R17). No decode result
sets any other flag: there is no overflow, error or saturation (40_decode.md R58). -/

namespace Sys2Proof.Machine

/-- `out_valid`: 1 exactly when `OUT = some(r)` (10_state.md R14). -/
def outValidOf : Option DecodeResult → BitVec 1
  | some _ => 1#1
  | none => 0#1

end Sys2Proof.Machine
end

