-- ==== Sys2Proof/WellFormed.lean ====
section
/-! DEFINITION. Which terms are well formed. Every cycle operation is: its operand is a whole 32-bit frame and every
frame is legal (30_encoding.md R39, R40). What can be ill formed is what comes from outside the ports: a number that is
to be a command word, the bytes of a frame, a trace line. -/

namespace Sys2Proof

/-- Every cycle operation is well formed: no frame is reserved or illegal (30_encoding.md R39). -/
def Instr.wellFormed : Instr → Bool
  | .reset => true
  | .decode _ => true
  | .idle => true

/-- A number is a cycle-command word when it fits 34 bits (30_encoding.md R43). -/
def commandNumberWellFormed (w : Nat) : Bool := decide (w < 2 ^ 34)

/-- The bytes of a frame: exactly four (20_memory.md R24); that each is in 0 to 255 holds by the type. -/
def frameBytesWellFormed (bytes : List Byte) : Bool := bytes.length == 4

/-- A trace line is well formed when its byte list, where it has one, is a frame (30_encoding.md R44). -/
def TraceLine.wellFormed : TraceLine → Bool
  | .reset => true
  | .idle => true
  | .decodeWord _ => true
  | .decodeBytes bytes => frameBytesWellFormed bytes

end Sys2Proof
end

