-- ==== Sys2Proof/Decode.lean ====
section
/-! DEFINITION. The encodings of 30_encoding.md, both ways: the frame's bytes, the cycle-command word, the opcode table,
the decoder and the encoder, and the trace text of R44. -/

namespace Sys2Proof

/-! ## The frame's bytes -/

/-- `frame[0..3]` as the 32-bit frame word: `frame[0]` in bits 31:24 through `frame[3]` in bits 7:0
(20_memory.md R22, 30_encoding.md R34). -/
def frameOfBytes (b0 b1 b2 b3 : Byte) : Frame := b0 ++ b1 ++ b2 ++ b3

/-- A frame from a list of bytes; none unless there are exactly four (20_memory.md R24, 60_exceptions.md R65). -/
def frameOfByteList : List Byte → Option Frame
  | [b0, b1, b2, b3] => some (frameOfBytes b0 b1 b2 b3)
  | _ => none

/-- Byte `frame[k]` of a frame word, for `k` in 0 to 3 (30_encoding.md R34). -/
def frameByte (f : Frame) (k : Fin 4) : Byte := f.extractLsb' (24 - 8 * k.val) 8

/-! ## The cycle-command word -/

/-- `cmd = {rst, in_valid, in_frame[31:0]}` (30_encoding.md R35). -/
def InputPorts.command (p : InputPorts) : CommandWord := p.rst ++ p.inValid ++ p.inFrame

/-- The ports of a cycle-command word: `cmd[33] = rst`, `cmd[32] = in_valid`, `cmd[31:0] = in_frame`
(30_encoding.md R35). -/
def portsOfCommand (w : CommandWord) : InputPorts :=
  { rst := w.extractLsb' 33 1, inValid := w.extractLsb' 32 1, inFrame := w.extractLsb' 0 32 }

/-- The `match` / `mask` pairs of 30_encoding.md R37. -/
def opcodeRows : List OpcodeRow :=
  [ { kind := .reset, mask := 0x200000000#34, pattern := 0x200000000#34 },
    { kind := .decode, mask := 0x300000000#34, pattern := 0x100000000#34 },
    { kind := .idle, mask := 0x300000000#34, pattern := 0x000000000#34 } ]

/-- A word selects a row when its bits under the row's mask are the row's pattern (30_encoding.md R37). -/
def rowSelects (r : OpcodeRow) (w : CommandWord) : Bool := (w &&& r.mask) == r.pattern

/-- The row kind of an operation. -/
def kindOf : Instr → OpKind
  | .reset => .reset
  | .decode _ => .decode
  | .idle => .idle

/-- The decoder: the operation is selected by `cmd[33:32]` alone, RESET taking precedence (30_encoding.md R37). It is
total: every cycle-command word is legal (R40). -/
def decodeCommand (w : CommandWord) : Instr :=
  let p := portsOfCommand w
  if p.rst = 1#1 then .reset
  else if p.inValid = 1#1 then .decode p.inFrame
  else .idle

/-- The decoder over any number: a number of more than 34 bits is rejected by name (log 10). -/
def decodeCommandNumber (w : Nat) : Except DecodeError Instr :=
  if commandNumberWellFormed w then .ok (decodeCommand (BitVec.ofNat 34 w)) else .error .wordTooWide

/-- What the decoder reads from the bits `w` of an opcode-table row, bit 0 the least significant (the cycle-command
word is one word of 34 bits, so `nbits` says nothing more). -/
def decodeTableWord (_nbits w : Nat) : Option Instr :=
  match decodeCommandNumber w with
  | .ok i => some i
  | .error _ => none

/-- The ports that select an operation, the ignored bits zero (30_encoding.md R37). -/
def encodePorts : Instr → InputPorts
  | .reset => { rst := 1#1, inValid := 0#1, inFrame := 0#32 }
  | .decode f => { rst := 0#1, inValid := 1#1, inFrame := f }
  | .idle => { rst := 0#1, inValid := 0#1, inFrame := 0#32 }

/-- The encoder: the cycle-command word of an operation, the ignored bits zero (30_encoding.md R37). -/
def encode (i : Instr) : CommandWord := (encodePorts i).command

/-! ## The trace text of 30_encoding.md R44 (its letter case and spaces: log 11) -/

/-- The operation of a well-formed trace line; none for a byte list that is no frame. -/
def instrOfTraceLine : TraceLine → Option Instr
  | .reset => some .reset
  | .idle => some .idle
  | .decodeWord f => some (.decode f)
  | .decodeBytes bytes => (frameOfByteList bytes).map .decode

/-- A hexadecimal digit of either case. -/
def hexDigitValue (c : Char) : Option Nat :=
  if '0' ≤ c ∧ c ≤ '9' then some (c.toNat - 48)
  else if 'A' ≤ c ∧ c ≤ 'F' then some (c.toNat - 55)
  else if 'a' ≤ c ∧ c ≤ 'f' then some (c.toNat - 87)
  else none

/-- A hexadecimal digit, upper case. -/
def hexDigitChar (d : Nat) : Char := if d < 10 then Char.ofNat (48 + d) else Char.ofNat (55 + d)

/-- Exactly `n` hexadecimal digits, the most significant first, onto the value read so far; and the text after them. -/
def readHexDigits : Nat → Nat → List Char → Option (Nat × List Char)
  | 0, acc, cs => some (acc, cs)
  | n + 1, acc, c :: cs =>
    match hexDigitValue c with
    | some d => readHexDigits n (acc * 16 + d) cs
    | none => none
  | _ + 1, _, [] => none

/-- The last `n` hexadecimal digits of a value, the most significant first, before the text `tail`. -/
def writeHexDigits : Nat → Nat → List Char → List Char
  | 0, _, tail => tail
  | n + 1, v, tail => writeHexDigits n (v / 16) (hexDigitChar (v % 16) :: tail)

/-- `0x` and exactly `n` hexadecimal digits. -/
def readHex (n : Nat) : List Char → Option (Nat × List Char)
  | '0' :: 'x' :: cs => readHexDigits n 0 cs
  | _ => none

/-- The rest of a byte list after its opening bracket: `0xHH, 0xHH, …]`, at most `fuel` bytes, nothing after it. -/
def readByteList : Nat → List Char → Option (List Byte)
  | 0, _ => none
  | fuel + 1, cs =>
    match readHex 2 cs with
    | some (v, [']']) => some [BitVec.ofNat 8 v]
    | some (v, ',' :: ' ' :: rest) => (readByteList fuel rest).map (BitVec.ofNat 8 v :: ·)
    | _ => none

/-- A byte list after its opening bracket, and the closing bracket. -/
def writeByteList : List Byte → List Char
  | [] => [']']
  | [b] => '0' :: 'x' :: writeHexDigits 2 b.toNat [']']
  | b :: bs => '0' :: 'x' :: writeHexDigits 2 b.toNat (',' :: ' ' :: writeByteList bs)

/-- One trace line without a cycle number. -/
def readTraceLine : List Char → Option TraceLine
  | ['R', 'E', 'S', 'E', 'T'] => some .reset
  | ['I', 'D', 'L', 'E'] => some .idle
  | 'D' :: 'E' :: 'C' :: 'O' :: 'D' :: 'E' :: ' ' :: '[' :: cs => (readByteList 4 cs).map .decodeBytes
  | 'D' :: 'E' :: 'C' :: 'O' :: 'D' :: 'E' :: ' ' :: cs =>
    match readHex 8 cs with
    | some (v, []) => some (.decodeWord (BitVec.ofNat 32 v))
    | _ => none
  | _ => none

/-- The text of a trace line without a cycle number. -/
def writeTraceLine : TraceLine → List Char
  | .reset => ['R', 'E', 'S', 'E', 'T']
  | .idle => ['I', 'D', 'L', 'E']
  | .decodeWord f => 'D' :: 'E' :: 'C' :: 'O' :: 'D' :: 'E' :: ' ' :: '0' :: 'x' :: writeHexDigits 8 f.toNat []
  | .decodeBytes bytes => 'D' :: 'E' :: 'C' :: 'O' :: 'D' :: 'E' :: ' ' :: '[' :: writeByteList bytes

/-- Decimal digits up to the colon that ends a cycle number, and the text after the colon. -/
def readCycleDigits : Nat → List Char → Option (Nat × List Char)
  | acc, c :: cs =>
    if c = ':' then some (acc, cs)
    else if '0' ≤ c ∧ c ≤ '9' then readCycleDigits (acc * 10 + (c.toNat - 48)) cs
    else none
  | _, [] => none

/-- A trace line with the cycle number it may be prefixed with, `n:` (30_encoding.md R44): the line as it stands where
it is one, else a cycle number of at least one digit, a colon, at most one space, and the line. -/
def readNumberedTraceLine (cs : List Char) : Option (Option Nat × TraceLine) :=
  match readTraceLine cs with
  | some l => some (none, l)
  | none =>
    if cs.head? = some ':' then none
    else
      match readCycleDigits 0 cs with
      | some (n, ' ' :: rest) => (readTraceLine rest).map (fun l => (some n, l))
      | some (n, rest) => (readTraceLine rest).map (fun l => (some n, l))
      | none => none

/-- The text of a trace line with its cycle number, where it has one: `n: ` and the line (30_encoding.md R44). -/
def writeNumberedTraceLine : Option Nat → TraceLine → List Char
  | none, l => writeTraceLine l
  | some n, l => Nat.toDigits 10 n ++ (':' :: ' ' :: writeTraceLine l)

end Sys2Proof
end

