-- ==== Sys2Proof/Machine/Operands.lean ====
section
/-! DEFINITION. The operand of DECODE and its datapath, one definition per step of the source's algorithm
(40_decode.md R48 to R56), computed exactly over the natural numbers (00_scope.md R7, 40_decode.md R60). -/

namespace Sys2Proof.Machine

/-- `zext_N(v)`: `v` as an `N`-bit unsigned value (00_scope.md R8). It requires `v < 2^N`, which every use of it in the
datapath meets (40_decode.md R58). -/
def zext (n v : Nat) : BitVec n := BitVec.ofNat n v

/-- Step 1, `word1 = in_frame[31:16]` (40_decode.md R48). -/
def word1 (f : Frame) : BitVec 16 := f.extractLsb' 16 16

/-- Step 2, `word2 = in_frame[15:0]` (40_decode.md R49). -/
def word2 (f : Frame) : BitVec 16 := f.extractLsb' 0 16

/-- Step 3, `exponent = word1 >> 12` (40_decode.md R50). -/
def frameExponent (f : Frame) : Nat := (word1 f).toNat >>> 12

/-- Step 4, `mantissa_msb = word1 & 0x0FFF` (40_decode.md R51). -/
def mantissaMsb (f : Frame) : Nat := (word1 f).toNat &&& 0x0FFF

/-- Step 5, `mantissa_lsb = word2 >> 8` (40_decode.md R52). -/
def mantissaLsb (f : Frame) : Nat := (word2 f).toNat >>> 8

/-- Step 5, `diag = word2 & 0xFF` (40_decode.md R52). -/
def frameDiag (f : Frame) : Nat := (word2 f).toNat &&& 0xFF

/-- Step 6, `full_mantissa = (mantissa_msb << 8) | mantissa_lsb` (40_decode.md R53). -/
def fullMantissa (f : Frame) : Nat := (mantissaMsb f <<< 8) ||| mantissaLsb f

/-- Step 7a, `lux_raw = full_mantissa << exponent`, nothing shifted out (40_decode.md R54). -/
def luxRawOf (mantissa exponent : Nat) : Nat := mantissa <<< exponent

/-- Step 7b, the lux value that `lux_raw` stands for, exactly: `lux_raw * LUX_LSB` (40_decode.md R55). -/
def luxOf (luxRaw : Nat) : Rat := (luxRaw : Rat) * Config.luxLsb

/-- `lux_q = (lux_raw * 3584) div 125` (40_decode.md R56). -/
def luxQOf (luxRaw : Nat) : Nat := luxRaw * Config.luxQNum / Config.luxQDen

/-- The lux value that `lux_q` shows, `lux_q / 2^16` (40_decode.md R56). -/
def luxShownBy (luxQ : Nat) : Rat := (luxQ : Rat) / (2 ^ Config.luxFracBits : Nat)

/-- `decode(f)`, the whole decode function: total, pure, reading nothing but its argument (40_decode.md R45). -/
def decodeFrame (f : Frame) : DecodeResult :=
  let luxRaw := luxRawOf (fullMantissa f) (frameExponent f)
  { exponent := zext 4 (frameExponent f)
    mantissa := zext 20 (fullMantissa f)
    luxRaw := zext 35 luxRaw
    luxQ := zext 40 (luxQOf luxRaw)
    diag := zext 8 (frameDiag f) }

end Sys2Proof.Machine
end

