-- ==== Sys2Proof/Machine/Ops.lean ====
section
/-! DEFINITION. The shared operations over State: writing `OUT`, reading the output ports, sampling the input ports at an
edge, closing the edge, and driving the ports for the next edge. LUXDEC takes no exception and returns from none
(60_exceptions.md R64, R67, R69) and has no memory (20_memory.md R27), so there is no operation for either. -/

namespace Sys2Proof.Machine

/-- `OUT <- v`: every field of a result is written at the same edge (10_state.md R13, 00_scope.md R8). -/
def State.writeOut (s : State) (v : Option DecodeResult) : State := { s with out := v }

/-- The output ports, a function of `OUT` alone (10_state.md R12). The data outputs carry no value when `OUT = none`
(R14, log 7). Reading them changes nothing (20_memory.md R27). -/
def outputsOf (out : Option DecodeResult) : Outputs :=
  { outValid := outValidOf out
    outExponent := out.map DecodeResult.exponent
    outMantissa := out.map DecodeResult.mantissa
    outLuxRaw := out.map DecodeResult.luxRaw
    outLuxQ := out.map DecodeResult.luxQ
    outDiag := out.map DecodeResult.diag }

/-- What the host reads on the output ports in the current cycle (10_state.md R12). -/
def State.outputs (s : State) : Outputs := outputsOf s.out

/-- What the block samples at the next rising edge (10_state.md R11, 70_reset_and_hazards.md R83): the head of the
listed inputs; where none is listed, the free value of this edge (log 2). -/
def State.sample (s : State) : EdgeSample :=
  match s.inputs with
  | e :: _ => e
  | [] => .stable (portsOfCommand (Config.hostDrives s.edge))

/-- The edge is over: the sample it took is consumed and the edge is counted (logs 1, 2). -/
def State.closeEdge (s : State) : State := { s with inputs := s.inputs.tail, edge := s.edge + 1 }

/-- The host drives these ports at the next edge: they take the place of what was listed for it. -/
def State.presentPorts (s : State) (p : InputPorts) : State :=
  { s with inputs := .stable p :: s.inputs.tail }

/-- The host drives this cycle-command word at the next edge (30_encoding.md R35). -/
def State.presentCommand (s : State) (w : CommandWord) : State := s.presentPorts (portsOfCommand w)

/-- The outcome of an operation, with the edge closed where it answers a next state. -/
def closeOutcome : Host.Outcome State Fault Refusal → Host.Outcome State Fault Refusal
  | .next s => .next s.closeEdge
  | .fault r => .fault r
  | .refused r => .refused r

end Sys2Proof.Machine
end

