-- ==== Sys2Proof/Machine/Cycle.lean ====
section
/-! DEFINITION. The meanings of the three cycle operations. Each writes `OUT` and nothing else, raises nothing, and so
always answers a next state (60_exceptions.md R64). -/

namespace Sys2Proof.Machine

/-- RESET: `OUT <- none`; the frame presented in the same cycle is discarded (70_reset_and_hazards.md R77, R78). -/
def execReset (s : State) : Host.Outcome State Fault Refusal := .next (s.writeOut none)

/-- DECODE: `OUT <- some(decode(in_frame))` (40_decode.md R46). -/
def execDecode (frame : Frame) (s : State) : Host.Outcome State Fault Refusal :=
  .next (s.writeOut (some (decodeFrame frame)))

/-- IDLE: `OUT <- none` (40_decode.md R47). -/
def execIdle (s : State) : Host.Outcome State Fault Refusal := .next (s.writeOut none)

end Sys2Proof.Machine
end

