-- ==== Sys2Proof/Machine/Dispatch.lean ====
section
/-! DEFINITION. One arm per cycle operation. -/

namespace Sys2Proof.Machine

def exec (i : Instr) (s : State) : Host.Outcome State Fault Refusal :=
  match i with
  | .reset => Sys2Proof.Machine.execReset s
  | .decode frame => Sys2Proof.Machine.execDecode frame s
  | .idle => Sys2Proof.Machine.execIdle s

end Sys2Proof.Machine
end

