-- ==== Sys2Proof/Machine/Step.lean ====
section
/-! DEFINITION. One step of the block: one rising edge of `clk` (70_reset_and_hazards.md R76, log 3). -/

namespace Sys2Proof.Machine

/-- At a rising edge the block samples its inputs, runs the operation that the cycle-command word selects, and the edge
is over (70_reset_and_hazards.md R76). Inputs that are not stable have no meaning (R83, log 6). -/
def step (s : State) : Host.Outcome State Fault Refusal :=
  match s.sample with
  | .unstable => .refused .unstableInputs
  | .stable p => closeOutcome (exec (decodeCommand p.command) s)

/-- `s` with the host driving this command word at the next edge (log 4). -/
def State.withFetchWord (s : State) (_nbits w : Nat) : State := s.presentCommand (BitVec.ofNat 34 w)

end Sys2Proof.Machine
end

