-- ==== Sys2Proof/Machine/HostPort.lean ====
section
/-! DEFINITION. The host's choice of cycle for what its bus read gave (60_exceptions.md R65, R66, R73). The bus itself is
out of scope (00_scope.md R4): a read is here its bytes, or its failure (log 8). -/

namespace Sys2Proof.Machine

/-- The ports of a DECODE cycle of this frame (60_exceptions.md R73). -/
def decodePorts (f : Frame) : InputPorts := { rst := 0#1, inValid := 1#1, inFrame := f }

/-- The ports of an IDLE cycle; the bits on `in_frame` are ignored, so `filler` is any value (40_decode.md R47). -/
def idlePorts (filler : Frame) : InputPorts := { rst := 0#1, inValid := 0#1, inFrame := filler }

/-- The ports of a RESET cycle; `in_valid` and `in_frame` are ignored (70_reset_and_hazards.md R77). -/
def resetPorts (inValid : BitVec 1) (filler : Frame) : InputPorts :=
  { rst := 1#1, inValid := inValid, inFrame := filler }

/-- What the host presents after a bus read: a DECODE cycle for a successful read of exactly four bytes, and an IDLE
cycle for a short, long or failed read (60_exceptions.md R65, R66, R73). -/
def portsForRead (read : Option (List Byte)) (filler : Frame) : InputPorts :=
  match read.bind frameOfByteList with
  | some f => decodePorts f
  | none => idlePorts filler

end Sys2Proof.Machine
end

