-- ==== Sys2Proof/Machine/Instances.lean ====
section
/-! DEFINITION. Several LUXDEC instances side by side (20_memory.md R31, 60_exceptions.md R72): each has its own `OUT` and
its own ports, so an edge of one instance's clock is a step of that instance alone (log 9). -/

namespace Sys2Proof.Machine

/-- Instance `k` of the bank takes one rising edge. A refusal of that instance (log 6) is the bank's, and an instance
that does not exist leaves the bank as it is: both are the model's choice (DESIGN CHOICE, log 9). -/
def stepInstance : List State → Nat → Host.Outcome (List State) Fault Refusal
  | [], _ => .next []
  | s :: bank, 0 =>
    match step s with
    | .next t => .next (t :: bank)
    | .fault r => .fault r
    | .refused r => .refused r
  | s :: bank, k + 1 =>
    match stepInstance bank k with
    | .next bank' => .next (s :: bank')
    | .fault r => .fault r
    | .refused r => .refused r

end Sys2Proof.Machine
end

