-- ==== Sys2Proof/Safety.lean ====
section
/-! DEFINITION. The terms that the statements use: the step relation of the spec over the ports, what a legal content of
`OUT` is, the host's contract, and what a run shows on the outputs. -/

namespace Sys2Proof.Machine

/-- The spec's step over `OUT` and the ports, as 70_reset_and_hazards.md R76 writes it. -/
def specStep (p : InputPorts) : Option DecodeResult :=
  if p.rst = 1#1 then none
  else if p.inValid = 1#1 then some (decodeFrame p.inFrame)
  else none

/-- A frame is accepted at an edge with these ports: no reset and `in_valid = 1` (30_encoding.md R37). -/
def acceptedFrame (p : InputPorts) : Option Frame :=
  if p.rst = 0#1 ∧ p.inValid = 1#1 then some p.inFrame else none

/-- A result record that the datapath can give: `lux_raw` is the mantissa shifted by the exponent and `lux_q` is its
fixed-point lux (10_state.md R13). -/
def DecodeResult.Consistent (r : DecodeResult) : Prop :=
  r.luxRaw.toNat = r.mantissa.toNat * 2 ^ r.exponent.toNat ∧ r.luxQ.toNat = r.luxRaw.toNat * 3584 / 125

/-- The invariant of `OUT`: a result that is visible is one the datapath can give. A power-up draw need not be
(10_state.md R21). -/
def State.Coherent (s : State) : Prop := ∀ r, s.out = some r → r.Consistent

/-- The host keeps its duty of 70_reset_and_hazards.md R83: the ports are stable at every listed edge. -/
def State.StableInputs (s : State) : Prop := ∀ e ∈ s.inputs, e ≠ EdgeSample.unstable

/-- The machine's invariant: what `OUT` shows is a decode result, and the host holds its inputs stable. -/
def State.Inv (s : State) : Prop := s.Coherent ∧ s.StableInputs

/-- The host's listed inputs are these ports, in this order, all stable, with `rest` listed after them. -/
def State.Presents (s : State) (ps : List InputPorts) (rest : List EdgeSample) : Prop :=
  s.inputs = ps.map EdgeSample.stable ++ rest

/-- The contents of `OUT` in the cycle after each of the next `n` edges, up to the first edge that does not answer a next
state. -/
def outRun : Nat → State → List (Option DecodeResult)
  | 0, _ => []
  | n + 1, s =>
    match step s with
    | .next t => t.out :: outRun n t
    | .fault _ => []
    | .refused _ => []

/-- What the host collects from a run, sampling the outputs in every cycle with `out_valid = 1` (60_exceptions.md R73). -/
def collected (n : Nat) (s : State) : List DecodeResult := (outRun n s).filterMap id

end Sys2Proof.Machine
end

