-- ==== Sys2Proof/Certificates/Slice0/Obligations.lean ====
section
/-! DEFINITION. The statements for the provers. Each docstring names the rules of spec/ that the statement formalises. -/

open Sys2Proof Sys2Proof.Machine

/-! ## Encodings -/

/-- 30_encoding.md R35: the bits of the cycle-command word are the ports, and the two determine each other. -/
def Obligations.CommandWordIsItsPorts : Prop :=
  (∀ p : InputPorts,
    p.command.extractLsb' 33 1 = p.rst ∧ p.command.extractLsb' 32 1 = p.inValid ∧
      p.command.extractLsb' 0 32 = p.inFrame ∧ portsOfCommand p.command = p) ∧
  (∀ w : CommandWord, (portsOfCommand w).command = w)

/-- 20_memory.md R22, 30_encoding.md R32 and R34: the frame is big-endian in both words, `frame[0]` at the top of the
port, and the fields stand at their bits. -/
def Obligations.FrameByteOrder : Prop :=
  (∀ b0 b1 b2 b3 : Byte, ∀ f : Frame, f = frameOfBytes b0 b1 b2 b3 →
    f.extractLsb' 24 8 = b0 ∧ f.extractLsb' 16 8 = b1 ∧ f.extractLsb' 8 8 = b2 ∧ f.extractLsb' 0 8 = b3 ∧
      (word1 f).toNat = ((b0.toNat <<< 8) ||| b1.toNat) ∧ (word2 f).toNat = ((b2.toNat <<< 8) ||| b3.toNat)) ∧
  (∀ f : Frame, frameOfBytes (frameByte f 0) (frameByte f 1) (frameByte f 2) (frameByte f 3) = f) ∧
  (∀ f : Frame,
    word1 f = f.extractLsb' 16 16 ∧ word2 f = f.extractLsb' 0 16 ∧
      f.toNat = (((word1 f).toNat <<< 16) ||| (word2 f).toNat) ∧
      frameExponent f = (f.extractLsb' 28 4).toNat ∧ mantissaMsb f = (f.extractLsb' 16 12).toNat ∧
      mantissaLsb f = (f.extractLsb' 8 8).toNat ∧ frameDiag f = (f.extractLsb' 0 8).toNat)

/-- 30_encoding.md R37: `cmd[33:32]` alone selects the operation, by the `match` / `mask` pairs of the opcode table, and
exactly one row matches every word. -/
def Obligations.CycleOperationSelection : Prop :=
  opcodeRows =
    [ ⟨.reset, 0x200000000#34, 0x200000000#34⟩, ⟨.decode, 0x300000000#34, 0x100000000#34⟩,
      ⟨.idle, 0x300000000#34, 0x000000000#34⟩ ] ∧
  ∀ w : CommandWord,
    (w.getLsbD 33 = true → decodeCommand w = .reset) ∧
    (w.getLsbD 33 = false → w.getLsbD 32 = true → decodeCommand w = .decode (w.extractLsb' 0 32)) ∧
    (w.getLsbD 33 = false → w.getLsbD 32 = false → decodeCommand w = .idle) ∧
    ∃ r ∈ opcodeRows, r.kind = kindOf (decodeCommand w) ∧ ∀ q ∈ opcodeRows, (w &&& q.mask = q.pattern ↔ q = r)

/-- 30_encoding.md R40: every one of the 2^34 command words is legal, whatever the state; in a RESET or IDLE cycle the
bits `cmd[31:0]`, and in a RESET cycle `cmd[32]` too, affect no state and no output. -/
def Obligations.EveryCommandWordLegal : Prop :=
  (∀ w : CommandWord, decodeTableWord 40 w.toNat = some (decodeCommand w) ∧
    ∀ s : State, ∃ t, step (s.presentCommand w) = .next t) ∧
  (∀ w v : CommandWord, w.getLsbD 33 = true → v.getLsbD 33 = true →
    ∀ s : State, step (s.presentCommand w) = step (s.presentCommand v)) ∧
  (∀ w v : CommandWord, w.getLsbD 33 = false → w.getLsbD 32 = false → v.getLsbD 33 = false → v.getLsbD 32 = false →
    ∀ s : State, step (s.presentCommand w) = step (s.presentCommand v))

/-- Decode and encode agree (30_encoding.md R34, R35, R37): decoding the word of any operation (all are well formed) gives it
back, with every frame as operand; a DECODE word has no bit outside its operand and its selection; and a word and the encoding of what it
decodes to are the same operation. -/
def Obligations.DecodeEncodeAgree : Prop :=
  (∀ i : Instr, decodeTableWord 40 (encode i).toNat = some i) ∧
  (∀ (w : CommandWord) (f : Frame), decodeCommand w = .decode f → encode (.decode f) = w) ∧
  (∀ w v : CommandWord, encode (decodeCommand w) = encode (decodeCommand v) ↔ decodeCommand w = decodeCommand v)

/-- A sanity check: the cycle-command words of 95_test_vectors.md section 3 decode to the operations listed there. -/
def Obligations.ListedWordsDecode : Prop :=
  decodeTableWord 40 0x000000000 = some .idle ∧ decodeTableWord 40 0x0FFFFFFFF = some .idle ∧
  decodeTableWord 40 0x107001020 = some (.decode 0x07001020#32) ∧
  decodeTableWord 40 0x100000000 = some (.decode 0x00000000#32) ∧
  decodeTableWord 40 0x200000000 = some .reset ∧ decodeTableWord 40 0x3FFFFFFFF = some .reset

/-- The model's choice, log 10 (30_encoding.md R43 gives one length, 34 bits): a number is read as a command word exactly
when it fits 34 bits, and a wider one is rejected by name. -/
def Obligations.OverwideNumberRejected : Prop :=
  (∀ n w : Nat, 2 ^ 34 ≤ w → decodeCommandNumber w = .error .wordTooWide ∧ decodeTableWord n w = none) ∧
  (∀ n w : Nat, w < 2 ^ 34 → decodeTableWord n w = some (decodeCommand (BitVec.ofNat 34 w)))

/-- 30_encoding.md R44, with the text conventions of log 11: reading the text of a well-formed trace line, with or without
a cycle number, gives it back; the two forms of DECODE mean the same; exactly the well-formed lines are an operation. -/
def Obligations.TraceTextRoundTrip : Prop :=
  (∀ (n : Option Nat) (l : TraceLine), l.wellFormed = true →
    readNumberedTraceLine (writeNumberedTraceLine n l) = some (n, l)) ∧
  (∀ b0 b1 b2 b3 : Byte, instrOfTraceLine (.decodeBytes [b0, b1, b2, b3]) =
    instrOfTraceLine (.decodeWord (frameOfBytes b0 b1 b2 b3))) ∧
  (∀ l : TraceLine, l.wellFormed = (instrOfTraceLine l).isSome)

/-! ## The decode datapath -/

/-- 40_decode.md R45: the whole decode function, each step written as arithmetic on the frame word read as one integer,
independently of the model's bit operations. -/
def Obligations.DecodeFunctionPseudocode : Prop :=
  ∀ (f : Frame) (word1 word2 exponent msb lsb diag mantissa luxRaw : Nat),
    word1 = f.toNat / 65536 → word2 = f.toNat % 65536 → exponent = word1 / 4096 → msb = word1 % 4096 →
    lsb = word2 / 256 → diag = word2 % 256 → mantissa = msb * 256 + lsb → luxRaw = mantissa * 2 ^ exponent →
    (decodeFrame f).exponent.toNat = exponent ∧ (decodeFrame f).mantissa.toNat = mantissa ∧
    (decodeFrame f).luxRaw.toNat = luxRaw ∧ (decodeFrame f).luxQ.toNat = luxRaw * 3584 / 125 ∧
    (decodeFrame f).diag.toNat = diag

/-- 40_decode.md R48 to R53, with their examples: the words, the fields of the frame, and the full mantissa. -/
def Obligations.FrameFieldSteps : Prop :=
  (∀ f : Frame,
    word1 f = f.extractLsb' 16 16 ∧ word2 f = f.extractLsb' 0 16 ∧
    frameExponent f = (word1 f).toNat >>> 12 ∧ frameExponent f ≤ 15 ∧
    (decodeFrame f).exponent = (word1 f).extractLsb' 12 4 ∧ (decodeFrame f).exponent = f.extractLsb' 28 4 ∧
    mantissaMsb f = ((word1 f).extractLsb' 0 12).toNat ∧ mantissaMsb f = (f.extractLsb' 16 12).toNat ∧
    mantissaLsb f = ((word2 f).extractLsb' 8 8).toNat ∧ mantissaLsb f = (f.extractLsb' 8 8).toNat ∧
    (decodeFrame f).diag = (word2 f).extractLsb' 0 8 ∧ (decodeFrame f).diag = f.extractLsb' 0 8 ∧
    fullMantissa f = ((mantissaMsb f <<< 8) ||| mantissaLsb f) ∧ fullMantissa f = mantissaMsb f * 256 + mantissaLsb f ∧
    fullMantissa f ≤ 0xFFFFF ∧ (decodeFrame f).mantissa = f.extractLsb' 8 20) ∧
  (∀ f : Frame, f = 0x07001020#32 →
    word1 f = 0x0700#16 ∧ word2 f = 0x1020#16 ∧ frameExponent f = 0 ∧ mantissaMsb f = 0x700 ∧ mantissaLsb f = 0x10 ∧
    frameDiag f = 0x20 ∧ fullMantissa f = 0x70010) ∧
  (∀ f : Frame, word1 f = 0xF000#16 → frameExponent f = 15) ∧
  (∀ e : BitVec 4, ∃ f : Frame, frameExponent f = e.toNat ∧ fullMantissa f ≠ 0 ∧
    (decodeFrame f).luxRaw.toNat = fullMantissa f <<< e.toNat) ∧
  (∀ (f : Frame) (d : Byte), decodeFrame (f.extractLsb' 8 24 ++ d) = { decodeFrame f with diag := d }) ∧
  (∀ (f : Frame) (s : State), ∃ t, exec (.decode f) s = .next t ∧ t.outputs.outDiag = some (f.extractLsb' 0 8))

/-- 40_decode.md R54, with its examples: `lux_raw` is the exact shift, no bit shifted out, at most 0x7FFFF8000, which is
reached. -/
def Obligations.LuxRawIsExactShift : Prop :=
  (∀ f : Frame, (decodeFrame f).luxRaw.toNat = fullMantissa f * 2 ^ frameExponent f ∧
    (decodeFrame f).luxRaw.toNat = fullMantissa f <<< frameExponent f ∧
    (decodeFrame f).luxRaw.toNat ≤ 0x7FFFF8000) ∧
  (decodeFrame 0xFFFFFF00#32).luxRaw.toNat = 34359705600 ∧
  (∀ f : Frame, fullMantissa f = 0x70010 → frameExponent f = 0 → (decodeFrame f).luxRaw = 0x70010#35) ∧
  (∀ f : Frame, fullMantissa f = 1 → frameExponent f = 15 → (decodeFrame f).luxRaw = 0x8000#35)

/-- 40_decode.md R55 and 00_scope.md R9: the lux value is the exact rational `lux_raw * 7 / 16000`, in 0 to 75161856/5,
which is reached; the reference frame is 200.711 lux exactly (90_conflicts.md C1). -/
def Obligations.LuxIsExactRational : Prop :=
  Config.luxLsb = 7 / 16000 ∧
  (∀ f : Frame, luxOf (decodeFrame f).luxRaw.toNat = ((decodeFrame f).luxRaw.toNat : Rat) * 7 / 16000 ∧
    0 ≤ luxOf (decodeFrame f).luxRaw.toNat ∧ luxOf (decodeFrame f).luxRaw.toNat ≤ 75161856 / 5) ∧
  luxOf (decodeFrame 0xFFFFFF00#32).luxRaw.toNat = 75161856 / 5 ∧
  (∀ (f : Frame) (s : State), ∃ t r, exec (.decode f) s = .next t ∧ t.outputs.outLuxRaw = some r ∧
    luxOf (fullMantissa f * 2 ^ frameExponent f) = (r.toNat : Rat) * 7 / 16000) ∧
  (∀ f : Frame, (decodeFrame f).luxRaw.toNat = 458768 → luxOf (decodeFrame f).luxRaw.toNat = 200711 / 1000)

/-- 40_decode.md R56, with its example: `lux_q` is the lux value in fixed point with 16 fraction bits, rounded toward
zero, in each of the rule's three forms. -/
def Obligations.LuxQIsFloorOfLux : Prop :=
  (∀ f : Frame, ((decodeFrame f).luxQ.toNat : Int) = ⌊luxOf (decodeFrame f).luxRaw.toNat * 2 ^ 16⌋ ∧
    (decodeFrame f).luxQ.toNat = (decodeFrame f).luxRaw.toNat * 7 * 2 ^ 16 / 16000 ∧
    (decodeFrame f).luxQ.toNat = (decodeFrame f).luxRaw.toNat * 3584 / 125 ∧
    luxShownBy (decodeFrame f).luxQ.toNat =
      (((decodeFrame f).luxQ.extractLsb' 16 24).toNat : Rat) + (((decodeFrame f).luxQ.extractLsb' 0 16).toNat : Rat) / 65536) ∧
  (7 * 2 ^ 16 / 16000 : Rat) = 3584 / 125 ∧ Nat.Coprime 3584 125 ∧
  (∀ f : Frame, (decodeFrame f).luxRaw.toNat = 458768 → (decodeFrame f).luxQ = 0xC8B604#40)

/-- 40_decode.md R57, with its example: `lux_q / 2^16` is never above the exact value and short of it by less than
`2^-16` lux, and it is exact exactly when `lux_raw` is a multiple of 125. -/
def Obligations.LuxQErrorBound : Prop :=
  (∀ f : Frame,
    0 ≤ luxOf (decodeFrame f).luxRaw.toNat - luxShownBy (decodeFrame f).luxQ.toNat ∧
    luxOf (decodeFrame f).luxRaw.toNat - luxShownBy (decodeFrame f).luxQ.toNat < 1 / 2 ^ 16 ∧
    (luxShownBy (decodeFrame f).luxQ.toNat = luxOf (decodeFrame f).luxRaw.toNat ↔
      125 ∣ (decodeFrame f).luxRaw.toNat)) ∧
  (∀ f : Frame, (decodeFrame f).luxRaw.toNat = 125 →
    (decodeFrame f).luxQ.toNat = 3584 ∧ luxShownBy (decodeFrame f).luxQ.toNat = 125 * (4375 / 10000000))

/-- 40_decode.md R58: no step overflows or wraps, each bound is below the width, the record's fields hold the exact
values, and a product of 47 bits (and not of 46) is wide enough for the same `lux_q`. -/
def Obligations.DatapathNeverOverflows : Prop :=
  (∀ f : Frame,
    frameExponent f ≤ 15 ∧ fullMantissa f ≤ 2 ^ 20 - 1 ∧
    luxRawOf (fullMantissa f) (frameExponent f) ≤ 34359705600 ∧
    luxRawOf (fullMantissa f) (frameExponent f) * 3584 ≤ 123145184870400 ∧
    luxQOf (luxRawOf (fullMantissa f) (frameExponent f)) ≤ 985161478963 ∧
    (decodeFrame f).exponent.toNat = frameExponent f ∧ (decodeFrame f).mantissa.toNat = fullMantissa f ∧
    (decodeFrame f).luxRaw.toNat = luxRawOf (fullMantissa f) (frameExponent f) ∧
    (decodeFrame f).luxQ.toNat = luxQOf (luxRawOf (fullMantissa f) (frameExponent f)) ∧
    (decodeFrame f).diag.toNat = frameDiag f ∧
    ((((decodeFrame f).luxRaw.setWidth 47 * 3584#47) / 125#47).setWidth 40 : BitVec 40) = (decodeFrame f).luxQ) ∧
  (34359705600 < 2 ^ 35 ∧ 123145184870400 < 2 ^ 47 ∧ 2 ^ 46 ≤ 34359705600 * 3584 ∧
    985161478963 < 2 ^ 40 ∧ (985161478963 : Nat) = 0xE560333333)

/-- 40_decode.md R59: `lux_raw` is 0 exactly when the mantissa is, `lux_q` exactly when `lux_raw` is, and no result is
negative; the zero frame gives 0 lux. -/
def Obligations.ZeroLuxExactlyZeroMantissa : Prop :=
  (∀ f : Frame,
    ((decodeFrame f).luxRaw = 0#35 ↔ (decodeFrame f).mantissa = 0#20) ∧
    ((decodeFrame f).luxQ = 0#40 ↔ (decodeFrame f).luxRaw = 0#35) ∧
    (1 ≤ (decodeFrame f).luxRaw.toNat → 28 ≤ (decodeFrame f).luxQ.toNat) ∧
    0 ≤ luxOf (decodeFrame f).luxRaw.toNat) ∧
  luxOf (decodeFrame (frameOfBytes 0#8 0#8 0#8 0#8)).luxRaw.toNat = 0

/-- From 40_decode.md R60: an implementation that scales the exact mantissa first and shifts after gives the same lux and
the same `lux_q` for every frame. -/
def Obligations.ScaleFirstGivesSameLux : Prop :=
  ∀ f : Frame,
    ((fullMantissa f : Rat) * Config.luxLsb) * 2 ^ frameExponent f = luxOf (decodeFrame f).luxRaw.toNat ∧
    ((fullMantissa f * 3584) <<< frameExponent f) / 125 = (decodeFrame f).luxQ.toNat

/-- 40_decode.md R62, with its example: monotonicity of `lux_raw` and `lux_q`, and that `lux_raw` is not monotonic in the
frame word. -/
def Obligations.LuxMonotone : Prop :=
  (∀ f g : Frame, (decodeFrame f).exponent = (decodeFrame g).exponent →
    (decodeFrame f).mantissa ≤ (decodeFrame g).mantissa →
    (decodeFrame f).luxRaw ≤ (decodeFrame g).luxRaw ∧ (decodeFrame f).luxQ ≤ (decodeFrame g).luxQ) ∧
  (∀ f g : Frame, (decodeFrame f).exponent = (decodeFrame g).exponent →
    (decodeFrame f).mantissa < (decodeFrame g).mantissa → (decodeFrame f).luxRaw < (decodeFrame g).luxRaw) ∧
  (∀ f g : Frame, (decodeFrame f).mantissa = (decodeFrame g).mantissa → (decodeFrame f).mantissa ≠ 0#20 →
    (decodeFrame f).exponent < (decodeFrame g).exponent → (decodeFrame f).luxRaw < (decodeFrame g).luxRaw) ∧
  (∀ f g : Frame, (decodeFrame f).luxRaw ≤ (decodeFrame g).luxRaw → (decodeFrame f).luxQ ≤ (decodeFrame g).luxQ) ∧
  ((0x0FFFFF00#32 : Frame) < 0x10000100#32 ∧ (decodeFrame 0x10000100#32).luxRaw = 2#35 ∧
    (decodeFrame 0x0FFFFF00#32).luxRaw = 1048575#35)

/-- 30_encoding.md R42, with its examples: the encoding is not canonical and the block does not normalise it; the outputs
report the fields as received. -/
def Obligations.NonCanonicalFramesKept : Prop :=
  (∀ f g : Frame, frameExponent f = 1 → fullMantissa f = 1 → frameExponent g = 0 → fullMantissa g = 2 →
    (decodeFrame f).luxRaw = 2#35 ∧ (decodeFrame g).luxRaw = 2#35) ∧
  (∀ f : Frame, fullMantissa f = 0 → (decodeFrame f).luxRaw = 0#35) ∧
  (∀ (f : Frame) (s : State), ∃ t, exec (.decode f) s = .next t ∧
    t.outputs.outExponent = some (f.extractLsb' 28 4) ∧ t.outputs.outMantissa = some (f.extractLsb' 8 20))

/-- 30_encoding.md R41: the diagnostic byte never affects the lux results (nor the other fields), is copied unchanged to
`out_diag`, and is not checked: DECODE completes with every value of it. -/
def Obligations.DiagByteIsOpaque : Prop :=
  (∀ f g : Frame, f.extractLsb' 8 24 = g.extractLsb' 8 24 →
    (decodeFrame f).luxRaw = (decodeFrame g).luxRaw ∧ (decodeFrame f).luxQ = (decodeFrame g).luxQ ∧
    (decodeFrame f).exponent = (decodeFrame g).exponent ∧ (decodeFrame f).mantissa = (decodeFrame g).mantissa) ∧
  (∀ (f : Frame) (s : State), ∃ t, exec (.decode f) s = .next t ∧ t.outputs.outValid = 1#1 ∧
    t.outputs.outDiag = some (f.extractLsb' 0 8))

/-- The contents that a DECODE can leave in `OUT` are exactly the consistent records (from 10_state.md R13, 40_decode.md
R45, R53, R54, R56). -/
def Obligations.ConsistentRecordsAreDecodes : Prop :=
  ∀ r : DecodeResult, r.Consistent ↔ ∃ f : Frame, decodeFrame f = r

/-! ## The cycle operations -/

/-- 40_decode.md R46, with its example: a DECODE cycle always completes, writes the decode of the frame to `OUT` whatever
was there, sets `out_valid`, and changes nothing else. -/
def Obligations.DecodeWritesResult : Prop :=
  (∀ (f : Frame) (s : State), exec (.decode f) s = .next { s with out := some (decodeFrame f) }) ∧
  (∀ w : CommandWord, w &&& 0x300000000#34 = 0x100000000#34 → decodeCommand w = .decode (w.extractLsb' 0 32)) ∧
  (∀ (s : State) (p : InputPorts), s.sample = .stable p → p.rst = 0#1 → p.inValid = 1#1 →
    ∃ t, step s = .next t ∧ t.out = some (decodeFrame p.inFrame) ∧ t.outputs.outValid = 1#1) ∧
  (∀ f : Frame, fullMantissa f = 0 → (decodeFrame f).luxRaw = 0#35 ∧ (decodeFrame f).luxQ = 0#40 ∧
    (decodeFrame f).exponent = f.extractLsb' 28 4 ∧ (decodeFrame f).diag = f.extractLsb' 0 8) ∧
  (∀ (s : State) (f g : Frame) (rest : List EdgeSample),
    s.inputs = .stable (decodePorts f) :: .stable (decodePorts g) :: rest →
    outRun 2 s = [some (decodeFrame f), some (decodeFrame g)]) ∧
  (∀ s : State, ∃ t, exec (.decode 0x07001020#32) s = .next t ∧
    t.outputs = ⟨1#1, some 0#4, some 0x70010#20, some 458768#35, some 13153796#40, some 0x20#8⟩)

/-- 40_decode.md R47, with its example: an IDLE cycle always completes, leaves `OUT = none` and `out_valid = 0` whatever
was there and whatever stands on `in_frame`, and changes nothing else. -/
def Obligations.IdleClearsResult : Prop :=
  (∀ s : State, exec .idle s = .next { s with out := none }) ∧
  (∀ w : CommandWord, w &&& 0x300000000#34 = 0x000000000#34 → decodeCommand w = .idle) ∧
  (∀ (s : State) (p : InputPorts), s.sample = .stable p → p.rst = 0#1 → p.inValid = 0#1 →
    ∃ t, step s = .next t ∧ t.out = none ∧ t.outputs.outValid = 0#1) ∧
  (∀ (s : State) (f g : Frame), step (s.presentPorts (idlePorts f)) = step (s.presentPorts (idlePorts g))) ∧
  (∀ (s : State) (f : Frame) (rest : List EdgeSample),
    s.inputs = .stable (decodePorts 0x07001020#32) :: .stable (idlePorts f) :: rest →
    (outRun 2 s).map outputsOf =
      [⟨1#1, some 0#4, some 0x70010#20, some 458768#35, some 13153796#40, some 0x20#8⟩,
        ⟨0#1, none, none, none, none, none⟩])

/-- 70_reset_and_hazards.md R77, with its example: a RESET cycle always completes, leaves `OUT = none` and `out_valid = 0`
whatever was there and whatever stands on `in_valid` and `in_frame`, is idempotent, and changes nothing else. -/
def Obligations.ResetClearsResult : Prop :=
  (∀ s : State, exec .reset s = .next { s with out := none }) ∧
  (∀ w : CommandWord, w &&& 0x200000000#34 = 0x200000000#34 → decodeCommand w = .reset) ∧
  (∀ (s : State) (p : InputPorts), s.sample = .stable p → p.rst = 1#1 →
    ∃ t, step s = .next t ∧ t.out = none ∧ t.outputs.outValid = 0#1) ∧
  (∀ (s : State) (v w : BitVec 1) (f g : Frame),
    step (s.presentPorts (resetPorts v f)) = step (s.presentPorts (resetPorts w g))) ∧
  (∀ s t : State, exec .reset s = .next t → exec .reset t = .next t) ∧
  (∀ (s : State) (ps : List InputPorts) (rest : List EdgeSample), s.Presents ps rest → (∀ p ∈ ps, p.rst = 1#1) →
    outRun ps.length s = List.replicate ps.length none) ∧
  (∀ (s : State) (v : BitVec 1) (f : Frame) (rest : List EdgeSample),
    s.inputs = .stable (decodePorts 0x07001020#32) :: .stable (resetPorts v f) :: rest →
    (outRun 2 s).map outValidOf = [1#1, 0#1])

/-- 60_exceptions.md R68 and 70_reset_and_hazards.md R78: reset wins over a frame of the same cycle; neither that frame
nor the result in `OUT` is visible afterwards, then or in any later cycle. -/
def Obligations.ResetDiscardsFrameAndResult : Prop :=
  (∀ (s : State) (f : Frame), ∃ t, step (s.presentPorts (resetPorts 1#1 f)) = .next t ∧ t.out = none) ∧
  (∀ (s : State) (v : Option DecodeResult) (f g : Frame) (n : Nat),
    outRun (n + 1) ((s.writeOut v).presentPorts (resetPorts 1#1 f)) =
      outRun (n + 1) (s.presentPorts (resetPorts 1#1 g)))

/-- 30_encoding.md R39: every frame is legal: DECODE of any frame completes in any state, with a value on every data
output. -/
def Obligations.EveryFrameLegal : Prop :=
  ∀ (f : Frame) (s : State), ∃ t, exec (.decode f) s = .next t ∧ t.outputs.outValid = 1#1 ∧
    t.outputs.outExponent.isSome ∧ t.outputs.outMantissa.isSome ∧ t.outputs.outLuxRaw.isSome ∧
    t.outputs.outLuxQ.isSome ∧ t.outputs.outDiag.isSome

/-! ## The ports and the step -/

/-- 10_state.md R12 and R14: the outputs are driven from `OUT` alone; `out_valid` is its tag; the data outputs are its
fields, and carry no value when `OUT = none`. -/
def Obligations.OutputsFollowOut : Prop :=
  (∀ s t : State, s.out = t.out → s.outputs = t.outputs) ∧
  (∀ s : State, s.outputs.outValid = 1#1 ↔ ∃ r, s.out = some r) ∧
  (∀ (s : State) (r : DecodeResult), s.out = some r →
    s.outputs = ⟨1#1, some r.exponent, some r.mantissa, some r.luxRaw, some r.luxQ, some r.diag⟩) ∧
  (∀ s : State, s.out = none → s.outputs = ⟨0#1, none, none, none, none, none⟩)

/-- A step runs the decoded operation: where the inputs of the edge are stable, the step is exec of the operation that the
command word of the ports decodes to, with the sample consumed and the edge counted (from 70_reset_and_hazards.md R76;
the list and the count are the model's own, logs 1 and 2). -/
def Obligations.StepRunsDecodedOperation : Prop :=
  (∀ (s : State) (p : InputPorts) (rest : List EdgeSample), s.inputs = .stable p :: rest → s.sample = .stable p) ∧
  (∀ (s : State) (p : InputPorts), s.sample = .stable p →
    step s =
      match exec (decodeCommand p.command) s with
      | .next t => .next { t with inputs := t.inputs.tail, edge := t.edge + 1 }
      | .fault r => .fault r
      | .refused r => .refused r)

/-- The word that the host drives next is the word that runs next (from 30_encoding.md R35, R37; log 4). -/
def Obligations.PresentedWordRunsNext : Prop :=
  ∀ (s : State) (w : Nat), w < 2 ^ 34 → ∃ i, decodeTableWord 40 w = some i ∧
    (s.withFetchWord 40 w).out = s.out ∧ (s.withFetchWord 40 w).edge = s.edge ∧
    (s.withFetchWord 40 w).inputs.tail = s.inputs.tail ∧
    step (s.withFetchWord 40 w) = closeOutcome (exec i (s.withFetchWord 40 w))

/-- 70_reset_and_hazards.md R76: the step of the block is the spec's step function of the sampled ports, from every state;
between edges the outputs are a function of `OUT` alone. -/
def Obligations.StepRefinesSpecStep : Prop :=
  (∀ (s : State) (p : InputPorts), s.sample = .stable p →
    step s = .next
      { out := if p.rst = 1#1 then none else if p.inValid = 1#1 then some (decodeFrame p.inFrame) else none
        inputs := s.inputs.tail
        edge := s.edge + 1 }) ∧
  (∀ s : State, s.outputs = outputsOf s.out)

/-- Inputs not stable at the edge are refused, and nothing else is (from 70_reset_and_hazards.md R83 and
93_implementation_defined.md section 2, whose treatment is `refuse`; the form is log 6's). -/
def Obligations.OnlyUnstableInputsRefused : Prop :=
  ∀ s : State, (s.sample = .unstable → step s = .refused .unstableInputs) ∧
    (∀ r, step s = .refused r → r = .unstableInputs ∧ ∃ rest, s.inputs = .unstable :: rest)

/-- The model's choice, log 2: where no input is listed the host drives some word, and the step runs it; this says
nothing of which word it is. -/
def Obligations.UnlistedInputIsSomeWord : Prop :=
  ∀ s : State, s.inputs = [] → ∃ w : CommandWord, step s = closeOutcome (exec (decodeCommand w) s) ∧
    ∃ t, step s = .next t ∧ t.inputs = [] ∧ t.edge = s.edge + 1

/-- 60_exceptions.md R64: no state faults, and no sequence of cycle-command words makes the block stop: from every
state the host may drive any words in any order, and the run through all of them answers a next state. -/
def Obligations.NoSequenceStops : Prop :=
  (∀ (s : State) (r : Fault), step s ≠ .fault r) ∧
  (∀ (s : State) (ws : List CommandWord) (rest : List EdgeSample), s.Presents (ws.map portsOfCommand) rest →
    ∃ t : State, Host.Core.run Sys2Proof.core ws.length s = .next t ∧ t.inputs = rest)

/-! ## Reset, power-up and boot -/

/-- 10_state.md R20: the state and the outputs after a cycle with `rst = 1`, and in the reset state. -/
def Obligations.ResetValues : Prop :=
  State.reset.out = none ∧ State.reset.outputs = ⟨0#1, none, none, none, none, none⟩ ∧
  (∀ (s : State) (p : InputPorts), s.sample = .stable p → p.rst = 1#1 →
    ∃ t, step s = .next t ∧ t.out = none ∧ t.outputs = ⟨0#1, none, none, none, none, none⟩)

/-- 10_state.md R21, 70_reset_and_hazards.md R79 and R80: at power-up `OUT` is any draw; after one or more RESET cycles
the draw is forgotten, `OUT = none`, and a DECODE at the very next edge is decoded, with nothing else to initialise. -/
def Obligations.BootForgetsPowerUpDraw : Prop :=
  (∀ draw : Option DecodeResult, (State.powerUp draw).out = draw) ∧
  (∃ draw, (State.powerUp draw).outputs.outValid = 1#1) ∧
  (∀ (draw : Option DecodeResult) (ps : List InputPorts) (f : Frame) (rest : List EdgeSample),
    ps ≠ [] → (∀ p ∈ ps, p.rst = 1#1) →
    ∃ t u : State,
      Host.Core.run Sys2Proof.core ps.length
        { State.powerUp draw with inputs := ps.map .stable ++ .stable (decodePorts f) :: rest } = .next t ∧
      t = { out := none, inputs := .stable (decodePorts f) :: rest, edge := ps.length } ∧
      t.outputs.outValid = 0#1 ∧ step t = .next u ∧ u.out = some (decodeFrame f))

/-! ## Runs -/

/-- The invariant that every step keeps: what is visible is a decode result, and the host's inputs are stable; and from
every such state the step answers a next state (where no input is listed, because the free word of log 2 is a stable
one). -/
def Obligations.StepKeepsInvariant : Prop :=
  ∀ s : State, s.Inv → (∃ t, step s = .next t) ∧ ∀ t, step s = .next t → t.Inv

/-- The reset state meets the invariant. -/
def Obligations.ResetMeetsInvariant : Prop := State.reset.Inv

/-- One edge establishes what is visible to be a decode result, from every state, a power-up draw among them (from
10_state.md R19, R21, 70_reset_and_hazards.md R76). -/
def Obligations.OneStepMakesOutCoherent : Prop :=
  ∀ s t : State, step s = .next t → t.Coherent

/-- 20_memory.md R28: along any run, from any state and under any sequence of inputs, the result of the frame accepted at
an edge is in `OUT` in the cycle after it and is replaced at the next edge; the results collected are the decodes of the
accepted frames, in order, one each, none dropped, merged or reordered. -/
def Obligations.ResultsInOrderOfFrames : Prop :=
  ∀ (s : State) (ps : List InputPorts) (rest : List EdgeSample), s.Presents ps rest →
    (∀ (k : Nat) (p : InputPorts), ps[k]? = some p → (outRun ps.length s)[k]? = some ((acceptedFrame p).map decodeFrame)) ∧
    (outRun ps.length s).length = ps.length ∧
    collected ps.length s = (ps.filterMap acceptedFrame).map decodeFrame

/-- The run of the machine and what it shows agree: after `n` edges the machine is in a state whose `OUT` is the last one
shown (from 70_reset_and_hazards.md R76, R82). -/
def Obligations.RunReachesLastShownResult : Prop :=
  ∀ (s : State) (ps : List InputPorts) (p : InputPorts) (rest : List EdgeSample), s.Presents (ps ++ [p]) rest →
    ∃ t : State, Host.Core.run Sys2Proof.core (ps.length + 1) s = .next t ∧ t.out = (acceptedFrame p).map decodeFrame ∧
      t.inputs = rest ∧ t.edge = s.edge + ps.length + 1

/-- 10_state.md R19: no history: what a run shows depends on the inputs of its edges alone, not on `OUT`, on the count of
edges or on any earlier frame. -/
def Obligations.NoHistoryInResults : Prop :=
  ∀ (s t : State) (ps : List InputPorts) (restS restT : List EdgeSample), s.Presents ps restS → t.Presents ps restT →
    outRun ps.length s = outRun ps.length t

/-- 70_reset_and_hazards.md R82: a result is visible for exactly one cycle: it is in `OUT` after the edge that accepted
its frame, and after the next edge `OUT` is what that edge's inputs give, whatever the frame was. -/
def Obligations.ResultVisibleOneCycle : Prop :=
  ∀ (s : State) (f : Frame) (p : InputPorts) (rest : List EdgeSample),
    s.inputs = .stable (decodePorts f) :: .stable p :: rest →
    ∃ t u, step s = .next t ∧ t.out = some (decodeFrame f) ∧ step t = .next u ∧
      (p.rst = 1#1 → u.out = none) ∧ (p.rst = 0#1 → p.inValid = 0#1 → u.out = none) ∧
      (p.rst = 0#1 → p.inValid = 1#1 → u.out = some (decodeFrame p.inFrame))

/-- 70_reset_and_hazards.md R81 and R84: latency 1 and throughput 1: frames in consecutive cycles each give their result
in the next cycle, and a DECODE may follow any operation at once. -/
def Obligations.FrameEveryCycle : Prop :=
  (∀ (s : State) (fs : List Frame) (rest : List EdgeSample), s.Presents (fs.map decodePorts) rest →
    outRun fs.length s = fs.map (fun f => some (decodeFrame f))) ∧
  (∀ (i : Instr) (s : State) (f : Frame), ∃ t u, exec i s = .next t ∧ exec (.decode f) t = .next u ∧
    u.out = some (decodeFrame f))

/-! ## The host and other instances -/

/-- From 60_exceptions.md R65, R66 and R73 (the form of a bus read is log 8's): a read of exactly four bytes is decoded
and its result is on the outputs in the next cycle; a failed read, or one of another length, gives an IDLE cycle. -/
def Obligations.HostReadBecomesCycle : Prop :=
  (∀ (s : State) (b0 b1 b2 b3 : Byte) (filler : Frame), ∃ t,
    step (s.presentPorts (portsForRead (some [b0, b1, b2, b3]) filler)) = .next t ∧
    t.out = some (decodeFrame (frameOfBytes b0 b1 b2 b3)) ∧ t.outputs.outValid = 1#1) ∧
  (∀ (s : State) (read : Option (List Byte)) (filler : Frame), (∀ bs, read = some bs → bs.length ≠ 4) →
    decodeCommand (portsForRead read filler).command = .idle ∧
    ∃ t, step (s.presentPorts (portsForRead read filler)) = .next t ∧ t.out = none ∧ t.outputs.outValid = 0#1)

/-- From 20_memory.md R31: an edge of one instance is a step of that instance and leaves every other instance as it was.
The list of states, and that a refusal of one instance (log 6) is the bank's outcome, are the model's choice (log 9). -/
def Obligations.InstancesShareNothing : Prop :=
  ∀ (bank : List State) (k : Nat) (s : State), bank[k]? = some s →
    (∀ t, step s = .next t → stepInstance bank k = .next (bank.set k t)) ∧
    (∀ r, step s = .refused r → stepInstance bank k = .refused r) ∧
    (∀ bank', stepInstance bank k = .next bank' → ∀ j, j ≠ k → bank'[j]? = bank[j]?)

/-- Edges of two different instances commute (from 60_exceptions.md R72: none can signal another; the list of states, and
that an edge of an instance that is not there changes nothing, are the model's choice, log 9). -/
def Obligations.InstanceEdgesCommute : Prop :=
  ∀ (bank bankJ bankJK : List State) (j k : Nat), j ≠ k →
    stepInstance bank j = .next bankJ → stepInstance bankJ k = .next bankJK →
    ∃ bankK, stepInstance bank k = .next bankK ∧ stepInstance bankK j = .next bankJK
end

