-- ==== Sys2Proof/Laws/Datapath.lean ====
section
/-! SUPPORT. The datapath's steps as arithmetic on the frame word read as one integer. -/

namespace Sys2Proof.Machine

/-- `zext` loses nothing of a value that fits (00_scope.md R8). -/
theorem zext_toNat {n v : Nat} (h : v < 2 ^ n) : (zext n v).toNat = v := by
  simp [zext, Nat.mod_eq_of_lt h]

theorem word1_toNat (f : Frame) : (word1 f).toNat = f.toNat / 2 ^ 16 := by
  have := f.isLt
  simp only [word1, BitVec.extractLsb'_toNat, Nat.shiftRight_eq_div_pow]
  omega

theorem word2_toNat (f : Frame) : (word2 f).toNat = f.toNat % 2 ^ 16 := by
  simp [word2, BitVec.extractLsb'_toNat]

theorem frameExponent_eq (f : Frame) : frameExponent f = f.toNat / 2 ^ 28 := by
  simp only [frameExponent, word1_toNat, Nat.shiftRight_eq_div_pow]
  omega

theorem mantissaMsb_eq (f : Frame) : mantissaMsb f = f.toNat / 2 ^ 16 % 2 ^ 12 := by
  rw [mantissaMsb, word1_toNat, show (0x0FFF : Nat) = 2 ^ 12 - 1 from rfl, Nat.and_two_pow_sub_one_eq_mod]

theorem mantissaLsb_eq (f : Frame) : mantissaLsb f = f.toNat / 2 ^ 8 % 2 ^ 8 := by
  simp only [mantissaLsb, word2_toNat, Nat.shiftRight_eq_div_pow]
  omega

theorem frameDiag_eq (f : Frame) : frameDiag f = f.toNat % 2 ^ 8 := by
  rw [frameDiag, word2_toNat, show (0xFF : Nat) = 2 ^ 8 - 1 from rfl, Nat.and_two_pow_sub_one_eq_mod]
  omega

/-- The two mantissa parts do not overlap, so `|` is `+` (40_decode.md R53). -/
theorem fullMantissa_eq_add (f : Frame) : fullMantissa f = mantissaMsb f * 2 ^ 8 + mantissaLsb f := by
  have h : mantissaLsb f < 2 ^ 8 := by rw [mantissaLsb_eq]; omega
  rw [fullMantissa, Nat.shiftLeft_eq, Nat.mul_comm, Nat.two_pow_add_eq_or_of_lt h]

/-- The full mantissa is `in_frame[27:8]` (30_encoding.md R38). -/
theorem fullMantissa_eq (f : Frame) : fullMantissa f = f.toNat / 2 ^ 8 % 2 ^ 20 := by
  rw [fullMantissa_eq_add, mantissaMsb_eq, mantissaLsb_eq]
  omega

theorem luxRawOf_eq (m e : Nat) : luxRawOf m e = m * 2 ^ e := Nat.shiftLeft_eq m e

theorem luxQOf_eq (r : Nat) : luxQOf r = r * 3584 / 125 := rfl

end Sys2Proof.Machine
end

