-- ==== Sys2Proof/Laws/Encoding.lean ====
section
/-! SUPPORT. The concatenations of the encodings as arithmetic, and the ports of a word as its bits. -/

namespace Sys2Proof

/-- Concatenation as arithmetic. -/
theorem append_toNat {m n : Nat} (a : BitVec m) (b : BitVec n) : (a ++ b).toNat = a.toNat * 2 ^ n + b.toNat := by
  rw [BitVec.toNat_append, Nat.shiftLeft_eq, Nat.mul_comm, ← Nat.two_pow_add_eq_or_of_lt b.isLt]

theorem command_toNat (p : InputPorts) :
    p.command.toNat = p.rst.toNat * 2 ^ 33 + p.inValid.toNat * 2 ^ 32 + p.inFrame.toNat := by
  simp only [InputPorts.command, append_toNat]
  omega

theorem frameOfBytes_toNat (b0 b1 b2 b3 : Byte) :
    (frameOfBytes b0 b1 b2 b3).toNat = b0.toNat * 2 ^ 24 + b1.toNat * 2 ^ 16 + b2.toNat * 2 ^ 8 + b3.toNat := by
  simp only [frameOfBytes, append_toNat]
  omega

theorem portsOfCommand_rst_toNat (w : CommandWord) : (portsOfCommand w).rst.toNat = w.toNat / 2 ^ 33 := by
  have := w.isLt
  simp only [portsOfCommand, BitVec.extractLsb'_toNat, Nat.shiftRight_eq_div_pow]
  omega

theorem portsOfCommand_inValid_toNat (w : CommandWord) :
    (portsOfCommand w).inValid.toNat = w.toNat / 2 ^ 32 % 2 := by
  simp only [portsOfCommand, BitVec.extractLsb'_toNat, Nat.shiftRight_eq_div_pow, Nat.pow_one]

theorem portsOfCommand_inFrame_toNat (w : CommandWord) :
    (portsOfCommand w).inFrame.toNat = w.toNat % 2 ^ 32 := by
  simp [portsOfCommand, BitVec.extractLsb'_toNat]

/-- A one-bit port is 0 or 1. -/
theorem bit_eq_zero_or_one (b : BitVec 1) : b = 0#1 ∨ b = 1#1 := by
  have := b.isLt
  rcases (by omega : b.toNat = 0 ∨ b.toNat = 1) with h | h
  · exact .inl (BitVec.eq_of_toNat_eq h)
  · exact .inr (BitVec.eq_of_toNat_eq h)

end Sys2Proof
end

