-- ==== Sys2Proof/Laws/State.lean ====
section
/-! SUPPORT. One lemma per field per update of State. -/

namespace Sys2Proof.Machine

variable (s : State) (v : Option DecodeResult) (p : InputPorts) (w : CommandWord)

@[simp] theorem State.reset_out : State.reset.out = none := rfl
@[simp] theorem State.reset_inputs : State.reset.inputs = [] := rfl
@[simp] theorem State.reset_edge : State.reset.edge = 0 := rfl

@[simp] theorem State.powerUp_out : (State.powerUp v).out = v := rfl
@[simp] theorem State.powerUp_inputs : (State.powerUp v).inputs = [] := rfl
@[simp] theorem State.powerUp_edge : (State.powerUp v).edge = 0 := rfl

@[simp] theorem State.writeOut_out : (s.writeOut v).out = v := rfl
@[simp] theorem State.writeOut_inputs : (s.writeOut v).inputs = s.inputs := rfl
@[simp] theorem State.writeOut_edge : (s.writeOut v).edge = s.edge := rfl

@[simp] theorem State.closeEdge_out : s.closeEdge.out = s.out := rfl
@[simp] theorem State.closeEdge_inputs : s.closeEdge.inputs = s.inputs.tail := rfl
@[simp] theorem State.closeEdge_edge : s.closeEdge.edge = s.edge + 1 := rfl

@[simp] theorem State.presentPorts_out : (s.presentPorts p).out = s.out := rfl
@[simp] theorem State.presentPorts_inputs : (s.presentPorts p).inputs = .stable p :: s.inputs.tail := rfl
@[simp] theorem State.presentPorts_edge : (s.presentPorts p).edge = s.edge := rfl

@[simp] theorem State.presentCommand_out : (s.presentCommand w).out = s.out := rfl
@[simp] theorem State.presentCommand_inputs :
    (s.presentCommand w).inputs = .stable (portsOfCommand w) :: s.inputs.tail := rfl
@[simp] theorem State.presentCommand_edge : (s.presentCommand w).edge = s.edge := rfl

end Sys2Proof.Machine
end

