-- ==== Sys2Proof/Laws/Ops.lean ====
section
/-! SUPPORT. What each shared operation can do, said once. -/

namespace Sys2Proof.Machine

/-- The sample of an edge is the head of the listed inputs, or the free value of that edge. -/
theorem State.sample_eq_iff (s : State) (e : EdgeSample) :
    s.sample = e ↔ (∃ rest, s.inputs = e :: rest) ∨
      (s.inputs = [] ∧ e = .stable (portsOfCommand (Config.hostDrives s.edge))) := by
  unfold State.sample
  cases s.inputs with
  | nil => simp [eq_comm]
  | cons a rest => simp

/-- The outputs while `OUT = none`. -/
@[simp] theorem outputsOf_none : outputsOf none = ⟨0#1, none, none, none, none, none⟩ := rfl

/-- The outputs while `OUT = some(r)`. -/
@[simp] theorem outputsOf_some (r : DecodeResult) :
    outputsOf (some r) = ⟨1#1, some r.exponent, some r.mantissa, some r.luxRaw, some r.luxQ, some r.diag⟩ := rfl

/-- The ports that the host drives are what the next edge samples. -/
theorem State.sample_presentPorts (s : State) (p : InputPorts) : (s.presentPorts p).sample = .stable p := rfl

/-- Closing an outcome answers a next state exactly when the operation did, and that state has its edge closed. -/
theorem closeOutcome_eq_next_iff (o : Host.Outcome State Fault Refusal) (t : State) :
    closeOutcome o = .next t ↔ ∃ u, o = .next u ∧ u.closeEdge = t := by
  cases o <;> simp [closeOutcome]

/-- What an operation can do: it answers a next state that differs from the old one in `OUT` alone. -/
theorem exec_eq_next_cases {i : Instr} {s t : State} (h : exec i s = .next t) :
    (i = .reset ∧ t = s.writeOut none) ∨ (∃ f, i = .decode f ∧ t = s.writeOut (some (decodeFrame f))) ∨
      (i = .idle ∧ t = s.writeOut none) := by
  cases i with
  | reset => exact .inl ⟨rfl, by simpa [exec, execReset] using h.symm⟩
  | decode f => exact .inr (.inl ⟨f, rfl, by simpa [exec, execDecode] using h.symm⟩)
  | idle => exact .inr (.inr ⟨rfl, by simpa [exec, execIdle] using h.symm⟩)

/-- What a step can do when it answers a next state: it ran the selected operation on a stable sample and closed the
edge. -/
theorem step_eq_next_cases {s t : State} (h : step s = .next t) :
    ∃ p u, s.sample = .stable p ∧ exec (decodeCommand p.command) s = .next u ∧ t = u.closeEdge := by
  unfold step at h
  split at h
  · cases h
  · next p hp =>
    obtain ⟨u, hu, ht⟩ := (closeOutcome_eq_next_iff _ _).1 h
    exact ⟨p, u, hp, hu, ht.symm⟩

end Sys2Proof.Machine
end

