-- ==== Sys2Proof/Laws/Host.lean ====
section
/-! SUPPORT. What the operations around the block can do, said once: the host's choice of cycle, an edge of one instance,
and what a run shows. -/

namespace Sys2Proof.Machine

/-- A byte list is a frame exactly when it has four bytes. -/
theorem frameOfByteList_eq_some_iff (bytes : List Byte) (f : Frame) :
    frameOfByteList bytes = some f ↔ ∃ b0 b1 b2 b3, bytes = [b0, b1, b2, b3] ∧ frameOfBytes b0 b1 b2 b3 = f := by
  unfold frameOfByteList
  split
  · next b0 b1 b2 b3 => simp
  · next h =>
    refine ⟨fun h' => (by cases h'), ?_⟩
    rintro ⟨b0, b1, b2, b3, rfl, -⟩
    exact absurd rfl (h b0 b1 b2 b3)

/-- The host presents the DECODE cycle of a frame that it read, or an IDLE cycle where it read none. -/
theorem portsForRead_cases (read : Option (List Byte)) (filler : Frame) :
    (∃ bytes f, read = some bytes ∧ frameOfByteList bytes = some f ∧ portsForRead read filler = decodePorts f) ∨
      ((∀ bytes, read = some bytes → frameOfByteList bytes = none) ∧ portsForRead read filler = idlePorts filler) := by
  unfold portsForRead
  cases read with
  | none => exact .inr ⟨by simp, rfl⟩
  | some bytes =>
    cases h : frameOfByteList bytes with
    | none => exact .inr ⟨by simp [h], by simp [h]⟩
    | some f => exact .inl ⟨bytes, f, rfl, h, by simp [h]⟩

/-- What an edge of one instance can do when it answers a bank: that instance took a step and was put back in its place,
or there is no such instance. -/
theorem stepInstance_eq_next_cases {bank bank' : List State} {k : Nat} (h : stepInstance bank k = .next bank') :
    (∃ s t, bank[k]? = some s ∧ step s = .next t ∧ bank' = bank.set k t) ∨ (bank[k]? = none ∧ bank' = bank) := by
  induction bank generalizing bank' k with
  | nil => exact .inr ⟨rfl, by simpa [stepInstance] using h.symm⟩
  | cons s rest ih =>
    cases k with
    | zero =>
      simp only [stepInstance] at h
      split at h
      · next t ht =>
        injection h with h
        exact .inl ⟨s, t, rfl, ht, h.symm⟩
      · cases h
      · cases h
    | succ k =>
      simp only [stepInstance] at h
      split at h
      · next rest' hr =>
        injection h with h
        subst h
        rcases ih hr with ⟨u, t, hu, ht, rfl⟩ | ⟨hk, rfl⟩
        · exact .inl ⟨u, t, by simpa using hu, ht, rfl⟩
        · exact .inr ⟨by simpa using hk, rfl⟩
      · cases h
      · cases h

/-- A run that takes a step shows `OUT` after it and goes on from there. -/
theorem outRun_succ {s t : State} (h : step s = .next t) (n : Nat) : outRun (n + 1) s = t.out :: outRun n t := by
  simp [outRun, h]

end Sys2Proof.Machine
end

