-- ==== Sys2Proof/Laws/PerInstr.lean ====
section
/-! SUPPORT. The per-instruction family: the encoder's word of an operation selects that operation's row of the opcode
table (30_encoding.md R37). -/

namespace Sys2Proof.Laws

/-- The word that the encoder gives selects a row of the opcode table that is this operation's. -/
def EncodeMeetsRow.Statement (i : Instr) : Prop :=
  ∃ r ∈ opcodeRows, r.kind = kindOf i ∧ rowSelects r (encode i) = true

theorem EncodeMeetsRow.reset : EncodeMeetsRow.Statement .reset :=
  ⟨_, List.mem_cons_self, by decide⟩

theorem EncodeMeetsRow.decode (frame : Frame) : EncodeMeetsRow.Statement (.decode frame) := by
  refine ⟨{ kind := .decode, mask := 0x300000000#34, pattern := 0x100000000#34 }, by simp [opcodeRows], rfl, ?_⟩
  have hlow : ∀ k < 32, (0x300000000#34).getLsbD k = false := by decide
  have hpat : ∀ k < 32, (0x100000000#34).getLsbD k = false := by decide
  simp only [rowSelects, beq_iff_eq, encode, encodePorts, InputPorts.command]
  apply BitVec.eq_of_getLsbD_eq
  intro k hk
  rw [BitVec.getLsbD_and, BitVec.getLsbD_append]
  by_cases h : k < 32
  · simp [hlow k h, hpat k h]
  · obtain rfl | rfl : k = 32 ∨ k = 33 := by omega
    all_goals rfl

theorem EncodeMeetsRow.idle : EncodeMeetsRow.Statement .idle :=
  ⟨_, List.mem_cons_of_mem _ (List.mem_cons_of_mem _ List.mem_cons_self), by decide⟩

end Sys2Proof.Laws
end

