-- ==== Sys2Proof/Laws/TraceText.lean ====
section
/-! SUPPORT. Writing and reading hexadecimal digits of the trace text. -/

namespace Sys2Proof

theorem hexDigitValue_hexDigitChar : ∀ d < 16, hexDigitValue (hexDigitChar d) = some d := by decide

/-- Reading `n + k` digits after writing `n` of them reads those and then `k` more. -/
theorem readHexDigits_writeHexDigits (n v acc k : Nat) (tail : List Char) :
    readHexDigits (n + k) acc (writeHexDigits n v tail) = readHexDigits k (acc * 16 ^ n + v % 16 ^ n) tail := by
  induction n generalizing v k tail with
  | zero => simp [writeHexDigits, Nat.mod_one]
  | succ n ih =>
    have value : (acc * 16 ^ n + v / 16 % 16 ^ n) * 16 + v % 16 = acc * 16 ^ (n + 1) + v % 16 ^ (n + 1) := by
      rw [Nat.pow_succ, Nat.mul_comm (16 ^ n) 16, Nat.mod_mul]
      ring
    rw [writeHexDigits, show n + 1 + k = n + (k + 1) by omega, ih, readHexDigits,
      hexDigitValue_hexDigitChar _ (Nat.mod_lt _ (by decide))]
    simp only [value]

/-- Exactly `n` digits of a value that fits them read back as the value. -/
theorem readHex_of_writeHexDigits (n v : Nat) (tail : List Char) (h : v < 16 ^ n) :
    readHex n ('0' :: 'x' :: writeHexDigits n v tail) = some (v, tail) := by
  have := readHexDigits_writeHexDigits n v 0 0 tail
  rw [Nat.add_zero] at this
  rw [readHex, this, readHexDigits]
  simp [Nat.mod_eq_of_lt h]

end Sys2Proof
end

