-- ==== Sys2Proof/Tests/Slice0.lean ====
section
/-! SUPPORT. Tests. Every expected value is from spec/95_test_vectors.md or from an encoding written out bit by bit from
spec/30_encoding.md; a witness shows a state and operands that meet the hypotheses of the statement it is named after. -/

namespace Sys2Proof.Tests

open Sys2Proof Sys2Proof.Machine

/-! ## Well-formedness: an ill-formed term for each check (no cycle operation is ill formed, 30_encoding.md R39, R40) -/

theorem test_wellFormed_number : commandNumberWellFormed (2 ^ 34) = false ∧ commandNumberWellFormed (2 ^ 34 - 1) = true := by
  decide

theorem test_wellFormed_bytes :
    frameBytesWellFormed [1#8, 2#8, 3#8] = false ∧ frameBytesWellFormed [1#8, 2#8, 3#8, 4#8, 5#8] = false ∧
      frameBytesWellFormed [1#8, 2#8, 3#8, 4#8] = true := by decide

theorem test_wellFormed_line :
    (TraceLine.decodeBytes []).wellFormed = false ∧ TraceLine.reset.wellFormed = true ∧ Instr.idle.wellFormed = true := by
  decide

/-! ## Decoding: words written out from 30_encoding.md R35 (`rst`, `in_valid`, then the frame's fields E, H, L, D) -/

theorem test_decode_reset : decodeTableWord 40 0b1000000000000000000000000000000000 = some .reset := by decide

theorem test_decode_reset_ignores : decodeTableWord 40 0b1111111111111111111111111111111111 = some .reset := by decide

/-- E = 3, H = 0xABC, L = 0xDE, D = 0x5A. -/
theorem test_decode_decode : decodeTableWord 40 0b0100111010101111001101111001011010 = some (.decode 0x3ABCDE5A#32) := by
  decide

theorem test_decode_idle : decodeTableWord 40 0b0000000000000000000000000000000000 = some .idle := by decide

theorem test_decode_idle_ignores : decodeTableWord 40 0b0011111111111111111111111111111111 = some .idle := by decide

theorem test_decode_wide : decodeCommandNumber 0x400000000 = .error .wordTooWide := by rfl

/-- 95_test_vectors.md section 4, the words of P1 and P3. -/
theorem test_encode :
    encode .reset = 0x200000000#34 ∧ encode (.decode 0x07001020#32) = 0x107001020#34 ∧ encode .idle = 0x000000000#34 := by
  decide

/-- 30_encoding.md R44, its examples. -/
theorem test_trace_text :
    readNumberedTraceLine ['I', 'D', 'L', 'E'] = some (none, .idle) ∧
    readNumberedTraceLine ['7', ':', ' ', 'R', 'E', 'S', 'E', 'T'] = some (some 7, .reset) ∧
    readNumberedTraceLine ['D', 'E', 'C', 'O', 'D', 'E', ' ', '0', 'x', '0', '7', '0', '0', '1', '0', '2', '0'] =
      some (none, .decodeWord 0x07001020#32) ∧
    instrOfTraceLine (.decodeBytes [0x07#8, 0x00#8, 0x10#8, 0x20#8]) = some (.decode 0x07001020#32) := by decide

theorem test_trace_text_refused :
    readNumberedTraceLine ['D', 'E', 'C', 'O', 'D', 'E', ' ', '0', 'x', '0', '7'] = none ∧
    readNumberedTraceLine [':', 'I', 'D', 'L', 'E'] = none ∧ instrOfTraceLine (.decodeBytes [0x07#8]) = none := by decide

/-! ## The datapath: vectors V1 to V18 of 95_test_vectors.md section 2 -/

/-- A row of the table: the frame gives these outputs. -/
def vector (f : Frame) (e m raw q d : Nat) : Bool :=
  decodeFrame f == ⟨BitVec.ofNat 4 e, BitVec.ofNat 20 m, BitVec.ofNat 35 raw, BitVec.ofNat 40 q, BitVec.ofNat 8 d⟩

theorem test_vectors_V1_to_V9 :
    vector 0x07001020#32 0 0x70010 458768 13153796 0x20 = true ∧ vector 0x00000000#32 0 0 0 0 0 = true ∧
    vector 0xFFFFFF00#32 15 0xFFFFF 34359705600 985161478963 0 = true ∧
    vector 0xFFFFFFFF#32 15 0xFFFFF 34359705600 985161478963 0xFF = true ∧
    vector 0xF0000000#32 15 0 0 0 0 = true ∧ vector 0x00000100#32 0 1 1 28 0 = true ∧
    vector 0xF0000100#32 15 1 32768 939524 0 = true ∧ vector 0x10000100#32 1 1 2 57 0 = true ∧
    vector 0x00000200#32 0 2 2 57 0 = true := by decide

theorem test_vectors_V10_to_V18 :
    vector 0x070010FF#32 0 0x70010 458768 13153796 0xFF = true ∧ vector 0x00010000#32 0 0x100 256 7340 0 = true ∧
    vector 0x0FFFFF00#32 0 0xFFFFF 1048575 30064742 0 = true ∧ vector 0x00007D00#32 0 0x7D 125 3584 0 = true ∧
    vector 0x80000100#32 8 1 256 7340 0 = true ∧ vector 0x3ABCDE5A#32 3 0xABCDE 5629680 161414184 0x5A = true ∧
    vector 0x00000001#32 0 0 0 0 1 = true ∧ vector 0x0000FF00#32 0 0xFF 255 7311 0 = true ∧
    vector 0x12345678#32 1 0x23456 288940 8284487 0x78 = true := by decide

/-! ## One step: rows of 95_test_vectors.md section 3 -/

/-- The result of vector V1. -/
def resultV1 : DecodeResult := ⟨0#4, 0x70010#20, 458768#35, 13153796#40, 0x20#8⟩

/-- A state with this `OUT` and these inputs listed. -/
def stateWith (out : Option DecodeResult) (inputs : List EdgeSample) : State := ⟨out, inputs, 5⟩

/-- `OUT` after one step from this `OUT`, with the host driving this command word. -/
def outAfter (out : Option DecodeResult) (w : Nat) : Option (Option DecodeResult) :=
  match step ((stateWith out []).withFetchWord 40 w) with
  | .next t => some t.out
  | .fault _ => none
  | .refused _ => none

/-- Rows I1 and I2. -/
theorem test_step_idle : outAfter (some resultV1) 0x007001020 = some none ∧ outAfter none 0x0FFFFFFFF = some none := by
  decide

/-- Rows R1, R2, R3 and R4. -/
theorem test_step_reset :
    outAfter (some resultV1) 0x200000000 = some none ∧ outAfter (some resultV1) 0x33ABCDE5A = some none ∧
    outAfter none 0x300000000 = some none ∧ outAfter none 0x200000000 = some none := by decide

/-- Rows D1 and D2. -/
theorem test_step_decode :
    outAfter none 0x107001020 = some (some resultV1) ∧ outAfter (some resultV1) 0x107001020 = some (some resultV1) := by
  decide

/-- 10_state.md R12 with row D1's outputs. -/
theorem test_outputs :
    (stateWith (some resultV1) []).outputs =
      ⟨1#1, some 0#4, some 0x70010#20, some 458768#35, some 13153796#40, some 0x20#8⟩ ∧
    (stateWith none []).outputs = ⟨0#1, none, none, none, none, none⟩ := by decide

/-- 70_reset_and_hazards.md R83. -/
theorem test_step_unstable : step (stateWith none [.unstable]) = .refused .unstableInputs := by rfl

/-! ## Witnesses: the hypotheses of each statement can be met, at the ends of their ranges -/

theorem witness_FrameByteOrder :
    0x07001020#32 = frameOfBytes 0x07#8 0x00#8 0x10#8 0x20#8 ∧ 0xFFFFFFFF#32 = frameOfBytes 0xFF#8 0xFF#8 0xFF#8 0xFF#8 := by
  decide

theorem witness_CycleOperationSelection :
    ((0x200000000#34).getLsbD 33 = true ∧ (0x3FFFFFFFF#34).getLsbD 33 = true) ∧
    ((0x100000000#34).getLsbD 33 = false ∧ (0x100000000#34).getLsbD 32 = true) ∧
    ((0x1FFFFFFFF#34).getLsbD 33 = false ∧ (0x1FFFFFFFF#34).getLsbD 32 = true) ∧
    ((0x000000000#34).getLsbD 33 = false ∧ (0x000000000#34).getLsbD 32 = false) ∧
    ((0x0FFFFFFFF#34).getLsbD 33 = false ∧ (0x0FFFFFFFF#34).getLsbD 32 = false) := by decide

theorem witness_EveryCommandWordLegal :
    ((0x200000000#34).getLsbD 33 = true ∧ (0x3FFFFFFFF#34).getLsbD 33 = true) ∧
    ((0x000000000#34).getLsbD 33 = false ∧ (0x000000000#34).getLsbD 32 = false ∧
      (0x0FFFFFFFF#34).getLsbD 33 = false ∧ (0x0FFFFFFFF#34).getLsbD 32 = false) := by decide

theorem witness_DecodeEncodeAgree :
    decodeCommand 0x100000000#34 = .decode 0x00000000#32 ∧ decodeCommand 0x1FFFFFFFF#34 = .decode 0xFFFFFFFF#32 := by
  decide

theorem witness_OverwideNumberRejected : 2 ^ 34 ≤ 0x400000000 ∧ 0x3FFFFFFFF < 2 ^ 34 := by decide

theorem witness_TraceTextRoundTrip :
    TraceLine.reset.wellFormed = true ∧ TraceLine.idle.wellFormed = true ∧
    (TraceLine.decodeWord 0xFFFFFFFF#32).wellFormed = true ∧
    (TraceLine.decodeBytes [0xB0#8, 0xB1#8, 0xB2#8, 0xB3#8]).wellFormed = true := by decide

theorem witness_DecodeFunctionPseudocode :
    0x3ABC = (0x3ABCDE5A#32).toNat / 65536 ∧ 0xDE5A = (0x3ABCDE5A#32).toNat % 65536 ∧ 3 = 0x3ABC / 4096 ∧
    0xABC = 0x3ABC % 4096 ∧ 0xDE = 0xDE5A / 256 ∧ 0x5A = 0xDE5A % 256 ∧ 0xABCDE = 0xABC * 256 + 0xDE ∧
    5629680 = 0xABCDE * 2 ^ 3 := by decide

theorem witness_FrameFieldSteps : word1 0xF0000000#32 = 0xF000#16 ∧ word1 0xF000FFFF#32 = 0xF000#16 := by decide

theorem witness_LuxRawIsExactShift :
    (fullMantissa 0x07001020#32 = 0x70010 ∧ frameExponent 0x07001020#32 = 0) ∧
    (fullMantissa 0xF0000100#32 = 1 ∧ frameExponent 0xF0000100#32 = 15) := by decide

theorem witness_LuxIsExactRational : (decodeFrame 0x07001020#32).luxRaw.toNat = 458768 := by decide

theorem witness_LuxQIsFloorOfLux : (decodeFrame 0x070010FF#32).luxRaw.toNat = 458768 := by decide

theorem witness_LuxQErrorBound : (decodeFrame 0x00007D00#32).luxRaw.toNat = 125 := by decide

theorem witness_ZeroLuxExactlyZeroMantissa :
    1 ≤ (decodeFrame 0x00000100#32).luxRaw.toNat ∧ 1 ≤ (decodeFrame 0xFFFFFF00#32).luxRaw.toNat := by decide

theorem witness_LuxMonotone :
    ((decodeFrame 0x10000100#32).exponent = (decodeFrame 0x1FFFFF00#32).exponent ∧
      (decodeFrame 0x10000100#32).mantissa < (decodeFrame 0x1FFFFF00#32).mantissa) ∧
    (decodeFrame 0x10000100#32).mantissa ≤ (decodeFrame 0x10000100#32).mantissa ∧
    ((decodeFrame 0x00000100#32).mantissa = (decodeFrame 0xF0000100#32).mantissa ∧
      (decodeFrame 0x00000100#32).mantissa ≠ 0#20 ∧
      (decodeFrame 0x00000100#32).exponent < (decodeFrame 0xF0000100#32).exponent) ∧
    (decodeFrame 0x00000100#32).luxRaw ≤ (decodeFrame 0xF0000100#32).luxRaw := by decide

theorem witness_NonCanonicalFramesKept :
    (frameExponent 0x10000100#32 = 1 ∧ fullMantissa 0x10000100#32 = 1 ∧ frameExponent 0x00000200#32 = 0 ∧
      fullMantissa 0x00000200#32 = 2) ∧ fullMantissa 0x000000FF#32 = 0 ∧ fullMantissa 0xF0000000#32 = 0 := by decide

theorem witness_DiagByteIsOpaque : (0x07001020#32).extractLsb' 8 24 = (0x070010FF#32).extractLsb' 8 24 := by decide

theorem witness_DecodeWritesResult :
    (stateWith none [.stable ⟨0#1, 1#1, 0xFFFFFFFF#32⟩]).sample = .stable ⟨0#1, 1#1, 0xFFFFFFFF#32⟩ ∧
    0x1FFFFFFFF#34 &&& 0x300000000#34 = 0x100000000#34 ∧ 0x100000000#34 &&& 0x300000000#34 = 0x100000000#34 ∧
    fullMantissa 0xF00000FF#32 = 0 ∧
    (stateWith none [.stable (decodePorts 0#32), .stable (decodePorts 0xFFFFFFFF#32), .unstable]).inputs =
      .stable (decodePorts 0#32) :: .stable (decodePorts 0xFFFFFFFF#32) :: [.unstable] := by decide

theorem witness_IdleClearsResult :
    (stateWith (some resultV1) [.stable ⟨0#1, 0#1, 0xFFFFFFFF#32⟩]).sample = .stable ⟨0#1, 0#1, 0xFFFFFFFF#32⟩ ∧
    0x0FFFFFFFF#34 &&& 0x300000000#34 = 0x000000000#34 ∧ 0x000000000#34 &&& 0x300000000#34 = 0x000000000#34 ∧
    (stateWith none [.stable (decodePorts 0x07001020#32), .stable (idlePorts 3#32)]).inputs =
      .stable (decodePorts 0x07001020#32) :: .stable (idlePorts 3#32) :: [] := by decide

theorem witness_ResetClearsResult :
    (stateWith (some resultV1) [.stable ⟨1#1, 1#1, 0x3ABCDE5A#32⟩]).sample = .stable ⟨1#1, 1#1, 0x3ABCDE5A#32⟩ ∧
    0x3FFFFFFFF#34 &&& 0x200000000#34 = 0x200000000#34 ∧ 0x200000000#34 &&& 0x200000000#34 = 0x200000000#34 ∧
    exec .reset (stateWith (some resultV1) []) = .next (stateWith none []) ∧
    (stateWith none [.stable ⟨1#1, 0#1, 0#32⟩, .stable ⟨1#1, 1#1, 1#32⟩]).Presents [⟨1#1, 0#1, 0#32⟩, ⟨1#1, 1#1, 1#32⟩] [] ∧
    (∀ p ∈ [(⟨1#1, 0#1, 0#32⟩ : InputPorts), ⟨1#1, 1#1, 1#32⟩], p.rst = 1#1) ∧
    (stateWith none [.stable (decodePorts 0x07001020#32), .stable (resetPorts 1#1 3#32)]).inputs =
      .stable (decodePorts 0x07001020#32) :: .stable (resetPorts 1#1 3#32) :: [] :=
  ⟨by decide, by decide, by decide, rfl, rfl, by decide, rfl⟩

theorem witness_OutputsFollowOut :
    (stateWith (some resultV1) []).out = (stateWith (some resultV1) [.unstable]).out ∧
    (stateWith (some resultV1) []).out = some resultV1 ∧ (stateWith none []).out = none := by decide

theorem witness_StepRunsDecodedOperation :
    (stateWith none [.stable (decodePorts 1#32), .unstable]).inputs = .stable (decodePorts 1#32) :: [.unstable] ∧
    (stateWith none [.stable (decodePorts 1#32), .unstable]).sample = .stable (decodePorts 1#32) := by decide

theorem witness_PresentedWordRunsNext : 0 < 2 ^ 34 ∧ 0x3FFFFFFFF < 2 ^ 34 := by decide

theorem witness_StepRefinesSpecStep :
    (stateWith none [.stable ⟨1#1, 1#1, 0xFFFFFFFF#32⟩]).sample = .stable ⟨1#1, 1#1, 0xFFFFFFFF#32⟩ := by decide

theorem witness_OnlyUnstableInputsRefused :
    (stateWith none [.unstable]).sample = .unstable ∧ step (stateWith none [.unstable]) = .refused .unstableInputs :=
  ⟨rfl, rfl⟩

theorem witness_UnlistedInputIsSomeWord : (stateWith (some resultV1) []).inputs = [] := by decide

theorem witness_NoSequenceStops :
    (stateWith (some resultV1) [.stable (portsOfCommand 0x3FFFFFFFF#34), .stable (portsOfCommand 0#34), .unstable]).Presents
      ([0x3FFFFFFFF#34, 0#34].map portsOfCommand) [.unstable] := rfl

theorem witness_ResetValues :
    (stateWith (some resultV1) [.stable (resetPorts 0#1 0#32)]).sample = .stable (resetPorts 0#1 0#32) ∧
    (resetPorts 0#1 0#32).rst = 1#1 := by decide

theorem witness_BootForgetsPowerUpDraw :
    [resetPorts 1#1 0#32] ≠ [] ∧ (∀ p ∈ [resetPorts 1#1 0#32], p.rst = 1#1) := by decide

theorem witness_StepKeepsInvariant :
    (stateWith (some resultV1) [.stable (decodePorts 1#32)]).Inv ∧
    ∃ t, step (stateWith (some resultV1) [.stable (decodePorts 1#32)]) = .next t := by
  refine ⟨⟨?_, by simp [State.StableInputs, stateWith]⟩, _, rfl⟩
  intro r h
  obtain rfl : resultV1 = r := Option.some.inj h
  exact ⟨by decide, by decide⟩

theorem witness_OneStepMakesOutCoherent :
    step (stateWith (some ⟨1#4, 1#20, 7#35, 7#40, 0#8⟩) [.stable (decodePorts 0x07001020#32)]) =
      .next ⟨some (decodeFrame 0x07001020#32), [], 6⟩ := rfl

theorem witness_ResultsInOrderOfFrames :
    (stateWith (some resultV1) [.stable (decodePorts 1#32), .stable (idlePorts 2#32), .unstable]).Presents
      [decodePorts 1#32, idlePorts 2#32] [.unstable] ∧
    [decodePorts 1#32, idlePorts 2#32][1]? = some (idlePorts 2#32) := ⟨rfl, by decide⟩

theorem witness_RunReachesLastShownResult :
    (stateWith none [.stable (idlePorts 2#32), .stable (decodePorts 1#32)]).Presents
      ([idlePorts 2#32] ++ [decodePorts 1#32]) [] := rfl

theorem witness_NoHistoryInResults :
    (stateWith (some resultV1) [.stable (decodePorts 1#32), .unstable]).Presents [decodePorts 1#32] [.unstable] ∧
    (State.Presents ⟨none, [.stable (decodePorts 1#32)], 0⟩ [decodePorts 1#32] []) := ⟨rfl, rfl⟩

theorem witness_ResultVisibleOneCycle :
    (stateWith none [.stable (decodePorts 1#32), .stable (idlePorts 0#32)]).inputs =
      .stable (decodePorts 1#32) :: .stable (idlePorts 0#32) :: [] ∧
    (resetPorts 1#1 0#32).rst = 1#1 ∧ (idlePorts 0#32).rst = 0#1 ∧ (idlePorts 0#32).inValid = 0#1 ∧
    (decodePorts 0#32).rst = 0#1 ∧ (decodePorts 0#32).inValid = 1#1 := by decide

theorem witness_FrameEveryCycle :
    (stateWith none [.stable (decodePorts 1#32), .stable (decodePorts 2#32)]).Presents ([1#32, 2#32].map decodePorts) [] :=
  rfl

theorem witness_HostReadBecomesCycle :
    (∀ bs, (none : Option (List Byte)) = some bs → bs.length ≠ 4) ∧
    (∀ bs, some [1#8, 2#8, 3#8] = some bs → bs.length ≠ 4) ∧
    (∀ bs, some [1#8, 2#8, 3#8, 4#8, 5#8] = some bs → bs.length ≠ 4) := by
  refine ⟨by simp, ?_, ?_⟩ <;> rintro bs ⟨⟩ <;> decide

theorem witness_InstancesShareNothing :
    [stateWith none [.stable (decodePorts 1#32)], stateWith none [.unstable]][0]? =
      some (stateWith none [.stable (decodePorts 1#32)]) ∧
    step (stateWith none [.stable (decodePorts 1#32)]) = .next ⟨some (decodeFrame 1#32), [], 6⟩ ∧
    step (stateWith none [.unstable]) = .refused .unstableInputs ∧
    stepInstance [stateWith none [.stable (decodePorts 1#32)], stateWith none [.unstable]] 0 =
      .next [⟨some (decodeFrame 1#32), [], 6⟩, stateWith none [.unstable]] := ⟨rfl, rfl, rfl, rfl⟩

theorem witness_InstanceEdgesCommute :
    stepInstance [stateWith none [.stable (decodePorts 1#32)], stateWith none [.stable (idlePorts 1#32)]] 0 =
      .next [⟨some (decodeFrame 1#32), [], 6⟩, stateWith none [.stable (idlePorts 1#32)]] ∧
    stepInstance [⟨some (decodeFrame 1#32), [], 6⟩, stateWith none [.stable (idlePorts 1#32)]] 1 =
      .next [⟨some (decodeFrame 1#32), [], 6⟩, ⟨none, [], 6⟩] := ⟨rfl, rfl⟩

end Sys2Proof.Tests
end

/-! # Proofs: the register `OUT` and the step

The facts that the statements of 10_state.md rest on: the block's step is the spec's step function of the sampled ports
(70_reset_and_hazards.md R76), the records that `OUT` can show are those of 10_state.md R13, and what a run over listed
stable inputs shows and reaches. -/

namespace Sys2Proof.Machine

/-! ## The fields of a decode -/

theorem frameExponent_lt (f : Frame) : frameExponent f < 2 ^ 4 := by
  have := f.isLt
  rw [frameExponent_eq]
  omega

theorem fullMantissa_lt (f : Frame) : fullMantissa f < 2 ^ 20 := by
  rw [fullMantissa_eq]
  omega

/-- Nothing is shifted out of the 35 bits of `lux_raw` (40_decode.md R54, R58). -/
theorem luxRawOf_lt {m e : Nat} (hm : m < 2 ^ 20) (he : e < 2 ^ 4) : luxRawOf m e < 2 ^ 35 := by
  have hpow : 2 ^ e ≤ 2 ^ 15 := Nat.pow_le_pow_right (by decide) (by omega)
  calc luxRawOf m e = m * 2 ^ e := luxRawOf_eq m e
    _ ≤ m * 2 ^ 15 := Nat.mul_le_mul_left m hpow
    _ < 2 ^ 35 := by omega

/-- `lux_q` fits its 40 bits (40_decode.md R58). -/
theorem luxQOf_lt {r : Nat} (hr : r < 2 ^ 35) : luxQOf r < 2 ^ 40 := by
  rw [luxQOf_eq]
  omega

theorem decodeFrame_exponent_toNat (f : Frame) : (decodeFrame f).exponent.toNat = frameExponent f :=
  zext_toNat (frameExponent_lt f)

theorem decodeFrame_mantissa_toNat (f : Frame) : (decodeFrame f).mantissa.toNat = fullMantissa f :=
  zext_toNat (fullMantissa_lt f)

theorem decodeFrame_luxRaw_toNat (f : Frame) :
    (decodeFrame f).luxRaw.toNat = luxRawOf (fullMantissa f) (frameExponent f) :=
  zext_toNat (luxRawOf_lt (fullMantissa_lt f) (frameExponent_lt f))

theorem decodeFrame_luxQ_toNat (f : Frame) :
    (decodeFrame f).luxQ.toNat = luxQOf (luxRawOf (fullMantissa f) (frameExponent f)) :=
  zext_toNat (luxQOf_lt (luxRawOf_lt (fullMantissa_lt f) (frameExponent_lt f)))

theorem decodeFrame_diag_toNat (f : Frame) : (decodeFrame f).diag.toNat = frameDiag f :=
  zext_toNat (by rw [frameDiag_eq]; omega)

/-! ## Consistent records -/

theorem decodeFrame_consistent (f : Frame) : (decodeFrame f).Consistent := by
  refine ⟨?_, ?_⟩
  · rw [decodeFrame_luxRaw_toNat, decodeFrame_mantissa_toNat, decodeFrame_exponent_toNat, luxRawOf_eq]
  · rw [decodeFrame_luxQ_toNat, decodeFrame_luxRaw_toNat, luxQOf_eq]

/-- A consistent record is determined by the three fields that are read off a frame. -/
theorem DecodeResult.Consistent.eq_of_fields {r q : DecodeResult} (hr : r.Consistent) (hq : q.Consistent)
    (he : r.exponent = q.exponent) (hm : r.mantissa = q.mantissa) (hd : r.diag = q.diag) : r = q := by
  obtain ⟨hrRaw, hrQ⟩ := hr
  obtain ⟨hqRaw, hqQ⟩ := hq
  have hraw : r.luxRaw = q.luxRaw := BitVec.eq_of_toNat_eq (by rw [hrRaw, hqRaw, he, hm])
  have hlux : r.luxQ = q.luxQ := BitVec.eq_of_toNat_eq (by rw [hrQ, hqQ, hraw])
  cases r
  cases q
  exact DecodeResult.mk.injEq .. |>.mpr ⟨he, hm, hraw, hlux, hd⟩

/-- The frame with these fields, at their bits in the frame word (30_encoding.md R38). -/
def frameOfFields (exponent : BitVec 4) (mantissa : BitVec 20) (diag : BitVec 8) : Frame := exponent ++ mantissa ++ diag

section
variable (e : BitVec 4) (m : BitVec 20) (d : BitVec 8)

theorem frameOfFields_toNat : (frameOfFields e m d).toNat = e.toNat * 2 ^ 28 + m.toNat * 2 ^ 8 + d.toNat := by
  simp only [frameOfFields, append_toNat]
  omega

theorem decodeFrame_frameOfFields_exponent : (decodeFrame (frameOfFields e m d)).exponent = e := by
  apply BitVec.eq_of_toNat_eq
  rw [decodeFrame_exponent_toNat, frameExponent_eq, frameOfFields_toNat]
  omega

theorem decodeFrame_frameOfFields_mantissa : (decodeFrame (frameOfFields e m d)).mantissa = m := by
  apply BitVec.eq_of_toNat_eq
  rw [decodeFrame_mantissa_toNat, fullMantissa_eq, frameOfFields_toNat]
  omega

theorem decodeFrame_frameOfFields_diag : (decodeFrame (frameOfFields e m d)).diag = d := by
  apply BitVec.eq_of_toNat_eq
  rw [decodeFrame_diag_toNat, frameDiag_eq, frameOfFields_toNat]
  omega

end

theorem DecodeResult.Consistent.decodeFrame_frameOfFields {r : DecodeResult} (hr : r.Consistent) :
    decodeFrame (frameOfFields r.exponent r.mantissa r.diag) = r :=
  (decodeFrame_consistent _).eq_of_fields hr (decodeFrame_frameOfFields_exponent ..)
    (decodeFrame_frameOfFields_mantissa ..) (decodeFrame_frameOfFields_diag ..)

/-! ## The spec's step function -/

theorem specStep_of_rst {p : InputPorts} (h : p.rst = 1#1) : specStep p = none := if_pos h

theorem specStep_decodePorts (f : Frame) : specStep (decodePorts f) = some (decodeFrame f) := rfl

/-- The spec's step writes nothing into `OUT` but the decode of a frame. -/
theorem specStep_consistent {p : InputPorts} {r : DecodeResult} (h : specStep p = some r) : r.Consistent := by
  unfold specStep at h
  split at h
  · cases h
  · split at h
    · obtain rfl := Option.some.inj h
      exact decodeFrame_consistent p.inFrame
    · cases h

/-! ## The step -/

/-- The command word of the ports carries the ports (30_encoding.md R35). -/
theorem portsOfCommand_command (p : InputPorts) : portsOfCommand p.command = p := by
  have hrst : (portsOfCommand p.command).rst = p.rst := BitVec.eq_of_toNat_eq (by
    rw [portsOfCommand_rst_toNat, command_toNat]; omega)
  have hvalid : (portsOfCommand p.command).inValid = p.inValid := BitVec.eq_of_toNat_eq (by
    rw [portsOfCommand_inValid_toNat, command_toNat]; omega)
  have hframe : (portsOfCommand p.command).inFrame = p.inFrame := BitVec.eq_of_toNat_eq (by
    rw [portsOfCommand_inFrame_toNat, command_toNat]; omega)
  cases p
  exact InputPorts.mk.injEq .. |>.mpr ⟨hrst, hvalid, hframe⟩

/-- The decoded operation writes into `OUT` what the spec's step function gives (70_reset_and_hazards.md R76). -/
theorem exec_decodeCommand_command (p : InputPorts) (s : State) :
    exec (decodeCommand p.command) s = .next (s.writeOut (specStep p)) := by
  simp only [decodeCommand, portsOfCommand_command, specStep]
  split
  · rfl
  · split <;> rfl

theorem step_of_sample_stable {s : State} {p : InputPorts} (h : s.sample = .stable p) :
    step s = .next (s.writeOut (specStep p)).closeEdge := by
  simp only [step, h, exec_decodeCommand_command, closeOutcome]

/-- A step that answers a next state wrote the spec's step of stable ports into `OUT` and closed the edge. -/
theorem step_eq_next_specStep {s t : State} (h : step s = .next t) :
    ∃ p, s.sample = .stable p ∧ t = (s.writeOut (specStep p)).closeEdge := by
  obtain ⟨p, u, hp, hu, rfl⟩ := step_eq_next_cases h
  rw [exec_decodeCommand_command] at hu
  injection hu with hu
  exact ⟨p, hp, by rw [hu]⟩

/-! ## The invariant -/

/-- A host that keeps its duty is sampled stable, at a listed edge and at one of log 2's free words. -/
theorem State.StableInputs.exists_sample {s : State} (h : s.StableInputs) : ∃ p, s.sample = .stable p := by
  cases hs : s.sample with
  | stable p => exact ⟨p, rfl⟩
  | unstable =>
    rcases (s.sample_eq_iff _).1 hs with ⟨rest, hrest⟩ | ⟨-, hfree⟩
    · exact absurd rfl (h .unstable (by simp [hrest]))
    · cases hfree

/-- A step consumes a listed input and lists none. -/
theorem step_keeps_stableInputs {s t : State} (hs : s.StableInputs) (h : step s = .next t) : t.StableInputs := by
  obtain ⟨p, -, rfl⟩ := step_eq_next_specStep h
  exact fun e he => hs e (List.mem_of_mem_tail he)

/-- Whatever was in `OUT` before, the edge replaces it by `none` or by a decode. -/
theorem step_makes_coherent {s t : State} (h : step s = .next t) : t.Coherent := by
  obtain ⟨p, -, rfl⟩ := step_eq_next_specStep h
  exact fun r hr => specStep_consistent hr

/-! ## Runs over listed stable inputs -/

theorem State.Presents.sample_eq {s : State} {p : InputPorts} {ps : List InputPorts} {rest : List EdgeSample}
    (h : s.Presents (p :: ps) rest) : s.sample = .stable p :=
  (s.sample_eq_iff _).2 (.inl ⟨_, h⟩)

/-- The edge of the first listed ports leaves the others listed. -/
theorem State.Presents.afterEdge {s : State} {p : InputPorts} {ps : List InputPorts} {rest : List EdgeSample}
    (h : s.Presents (p :: ps) rest) (v : Option DecodeResult) : (s.writeOut v).closeEdge.Presents ps rest :=
  congrArg List.tail h

/-- What a run shows is the spec's step of each edge's ports: no term of it is about the state it starts from. -/
theorem outRun_of_presents {s : State} {ps : List InputPorts} {rest : List EdgeSample} (h : s.Presents ps rest) :
    outRun ps.length s = ps.map specStep := by
  induction ps generalizing s with
  | nil => rfl
  | cons p ps ih =>
    rw [List.length_cons, outRun_succ (step_of_sample_stable h.sample_eq), ih (h.afterEdge _)]
    rfl

/-- The run over listed stable inputs reaches the state that holds the last edge's result. -/
theorem run_of_presents {s : State} {ps : List InputPorts} {rest : List EdgeSample} (h : s.Presents ps rest) :
    Host.Core.run Sys2Proof.core ps.length s =
      .next (⟨(ps.map specStep).getLastD s.out, rest, s.edge + ps.length⟩ : State) := by
  induction ps generalizing s with
  | nil =>
    obtain ⟨out, inputs, edge⟩ := s
    obtain rfl : inputs = rest := h
    rfl
  | cons p ps ih =>
    have hstep : Sys2Proof.core.step s = .next (s.writeOut (specStep p)).closeEdge :=
      step_of_sample_stable h.sample_eq
    simp only [List.length_cons, Host.Core.run, hstep]
    rw [ih (h.afterEdge _), List.map_cons, List.getLastD_cons]
    simp [Nat.add_assoc, Nat.add_comm 1]

/-- After one or more RESET edges `OUT` is `none`, whatever it was (70_reset_and_hazards.md R77). -/
theorem getLastD_specStep_of_rst {ps : List InputPorts} (hne : ps ≠ []) (hrst : ∀ p ∈ ps, p.rst = 1#1)
    (v : Option DecodeResult) : (ps.map specStep).getLastD v = none := by
  have hlast := specStep_of_rst (hrst _ (ps.getLast_mem hne))
  rw [List.getLastD_eq_getLast?, List.getLast?_map, List.getLast?_eq_getLast_of_ne_nil hne]
  exact hlast

end Sys2Proof.Machine

/-! # Settled: the statements of 10_state.md -/

namespace Sys2Proof.Machine

/-- Settles O36: the two halves of the invariant are kept separately, and a stable sample always answers. -/
theorem stepKeepsInvariant : Obligations.StepKeepsInvariant := by
  rintro s ⟨-, hstable⟩
  obtain ⟨p, hp⟩ := hstable.exists_sample
  exact ⟨⟨_, step_of_sample_stable hp⟩, fun t ht => ⟨step_makes_coherent ht, step_keeps_stableInputs hstable ht⟩⟩

/-- Settles O21: a consistent record is the decode of the frame with its exponent, mantissa and diag byte. -/
theorem consistentRecordsAreDecodes : Obligations.ConsistentRecordsAreDecodes := by
  intro r
  refine ⟨fun hr => ⟨_, hr.decodeFrame_frameOfFields⟩, ?_⟩
  rintro ⟨f, rfl⟩
  exact decodeFrame_consistent f

/-- Settles O35: the run over the RESET edges, then the step of the DECODE that is listed next. -/
theorem bootForgetsPowerUpDraw : Obligations.BootForgetsPowerUpDraw := by
  refine ⟨State.powerUp_out, ⟨some (decodeFrame 0#32), rfl⟩, ?_⟩
  intro draw ps f rest hne hrst
  have hrun := run_of_presents (ps := ps) (rest := .stable (decodePorts f) :: rest)
    (s := { State.powerUp draw with inputs := ps.map .stable ++ .stable (decodePorts f) :: rest }) rfl
  rw [getLastD_specStep_of_rst hne hrst, State.powerUp_edge, Nat.zero_add] at hrun
  exact ⟨_, _, hrun, rfl, rfl, step_of_sample_stable rfl, specStep_decodePorts f⟩

/-- Settles O38: the invariant's half about `OUT`, which needs nothing of the state before the edge. -/
theorem oneStepMakesOutCoherent : Obligations.OneStepMakesOutCoherent :=
  fun _ _ h => step_makes_coherent h

/-- Settles O41: both runs show the spec's step of the same ports. -/
theorem noHistoryInResults : Obligations.NoHistoryInResults := by
  intro s t ps restS restT hs ht
  rw [outRun_of_presents hs, outRun_of_presents ht]

/-- Settles O27, by the two contents of `OUT`. -/
theorem outputsFollowOut : Obligations.OutputsFollowOut := by
  refine ⟨fun s t h => congrArg outputsOf h, fun s => ?_, fun s r h => ?_, fun s h => ?_⟩
  · cases hout : s.out with
    | none => simp [State.outputs, hout]
    | some r => simp [State.outputs, hout]
  · rw [State.outputs, h, outputsOf_some]
  · rw [State.outputs, h, outputsOf_none]

/-- Settles O32: the word is the free value of this edge (log 2). -/
theorem unlistedInputIsSomeWord : Obligations.UnlistedInputIsSomeWord := by
  intro s h
  have hsample : s.sample = .stable (portsOfCommand (Config.hostDrives s.edge)) :=
    (s.sample_eq_iff _).2 (.inr ⟨h, rfl⟩)
  refine ⟨(portsOfCommand (Config.hostDrives s.edge)).command, by simp only [step, hsample], _,
    step_of_sample_stable hsample, ?_, rfl⟩
  simp [h]

/-- Settles O34: a RESET edge writes `none`, and the outputs follow `OUT`. -/
theorem resetValues : Obligations.ResetValues := by
  refine ⟨State.reset_out, outputsOf_none, fun s p hp hrst => ?_⟩
  have hstep := step_of_sample_stable hp
  rw [specStep_of_rst hrst] at hstep
  exact ⟨_, hstep, rfl, outputsOf_none⟩

/-- Settles O37: nothing is visible and nothing is listed. -/
theorem resetMeetsInvariant : Obligations.ResetMeetsInvariant := by
  refine ⟨fun r h => ?_, fun e he => ?_⟩
  · rw [State.reset_out] at h
    cases h
  · rw [State.reset_inputs] at he
    cases he

end Sys2Proof.Machine

/-! # Proofs: the frame in memory order, runs over frames and several instances

The facts that the statements of 20_memory.md rest on: the frame word as the concatenation of its bytes and of its two
words (R22), the spec's step as the decode of the accepted frame (R28), and the edge of one instance of a bank as a step
of that instance (R31). -/

namespace Sys2Proof.Machine

/-! ## The frame's bytes and words -/

/-- A bit field of a word as arithmetic on its value. -/
theorem extractLsb'_toNat_eq_div_mod {w : Nat} (start len : Nat) (x : BitVec w) :
    (x.extractLsb' start len).toNat = x.toNat / 2 ^ start % 2 ^ len := by
  rw [BitVec.extractLsb'_toNat, Nat.shiftRight_eq_div_pow]

/-- `frame[k]` stands at bits `31 - 8k : 24 - 8k` (30_encoding.md R34). -/
theorem frameByte_toNat (f : Frame) (k : Fin 4) : (frameByte f k).toNat = f.toNat / 2 ^ (24 - 8 * k.val) % 2 ^ 8 :=
  extractLsb'_toNat_eq_div_mod ..

/-- A frame is made of its four bytes (20_memory.md R22). -/
theorem frameOfBytes_frameByte (f : Frame) :
    frameOfBytes (frameByte f 0) (frameByte f 1) (frameByte f 2) (frameByte f 3) = f := by
  apply BitVec.eq_of_toNat_eq
  have := f.isLt
  simp only [frameOfBytes_toNat, frameByte_toNat, Fin.coe_ofNat_eq_mod, Nat.reduceMod, Nat.reduceMul, Nat.reduceSub]
  omega

/-- A frame is its two words, `word1` on top (30_encoding.md R34). -/
theorem word1_append_word2 (f : Frame) : word1 f ++ word2 f = f := by
  apply BitVec.eq_of_toNat_eq
  rw [append_toNat, word1_toNat, word2_toNat]
  omega

section
variable (b0 b1 b2 b3 : Byte)

/-- The first two bytes are the first word, big-endian (20_memory.md R22). -/
theorem word1_frameOfBytes : word1 (frameOfBytes b0 b1 b2 b3) = b0 ++ b1 := by
  apply BitVec.eq_of_toNat_eq
  rw [word1_toNat, frameOfBytes_toNat, append_toNat]
  omega

/-- The last two bytes are the second word, big-endian (20_memory.md R22). -/
theorem word2_frameOfBytes : word2 (frameOfBytes b0 b1 b2 b3) = b2 ++ b3 := by
  apply BitVec.eq_of_toNat_eq
  rw [word2_toNat, frameOfBytes_toNat, append_toNat]
  omega

/-- The four bytes are read back from their bits of the frame word (30_encoding.md R34). -/
theorem frameOfBytes_bytes :
    (frameOfBytes b0 b1 b2 b3).extractLsb' 24 8 = b0 ∧ (frameOfBytes b0 b1 b2 b3).extractLsb' 16 8 = b1 ∧
      (frameOfBytes b0 b1 b2 b3).extractLsb' 8 8 = b2 ∧ (frameOfBytes b0 b1 b2 b3).extractLsb' 0 8 = b3 := by
  refine ⟨?_, ?_, ?_, ?_⟩
  all_goals
    apply BitVec.eq_of_toNat_eq
    rw [extractLsb'_toNat_eq_div_mod, frameOfBytes_toNat]
    omega

end

/-! ## The fields of a frame at their bits (30_encoding.md R34) -/

section
variable (f : Frame)

theorem frameExponent_eq_bits : frameExponent f = (f.extractLsb' 28 4).toNat := by
  rw [frameExponent_eq, extractLsb'_toNat_eq_div_mod]
  omega

theorem mantissaMsb_eq_bits : mantissaMsb f = (f.extractLsb' 16 12).toNat := by
  rw [mantissaMsb_eq, extractLsb'_toNat_eq_div_mod]

theorem mantissaLsb_eq_bits : mantissaLsb f = (f.extractLsb' 8 8).toNat := by
  rw [mantissaLsb_eq, extractLsb'_toNat_eq_div_mod]

theorem frameDiag_eq_bits : frameDiag f = (f.extractLsb' 0 8).toNat := by
  rw [frameDiag_eq, extractLsb'_toNat_eq_div_mod, Nat.pow_zero, Nat.div_one]

end

/-! ## The accepted frames of a run -/

/-- The spec's step writes the decode of the frame that the edge accepts, and `none` where it accepts none
(30_encoding.md R37, 70_reset_and_hazards.md R76). -/
theorem specStep_eq_map_acceptedFrame (p : InputPorts) : specStep p = (acceptedFrame p).map decodeFrame := by
  unfold specStep acceptedFrame
  rcases bit_eq_zero_or_one p.rst with hrst | hrst
  · rcases bit_eq_zero_or_one p.inValid with hvalid | hvalid
    · simp [hrst, hvalid]
    · simp [hrst, hvalid]
  · simp [hrst]

/-! ## The edge of one instance -/

/-- The bank's outcome when instance `k` has this outcome (log 9): its next state takes its place in the bank. -/
def outcomeInBank (bank : List State) (k : Nat) :
    Host.Outcome State Fault Refusal → Host.Outcome (List State) Fault Refusal
  | .next t => .next (bank.set k t)
  | .fault r => .fault r
  | .refused r => .refused r

/-- The edge of an instance of the bank is a step of that instance, with its outcome put back in its place. -/
theorem stepInstance_eq_outcomeInBank {bank : List State} {k : Nat} {s : State} (h : bank[k]? = some s) :
    stepInstance bank k = outcomeInBank bank k (step s) := by
  induction bank generalizing k with
  | nil => cases h
  | cons u bank ih =>
    cases k with
    | zero =>
      obtain rfl : u = s := Option.some.inj h
      cases hstep : step u <;> simp [stepInstance, outcomeInBank, hstep]
    | succ k =>
      have hrest : stepInstance bank k = outcomeInBank bank k (step s) := ih h
      cases hstep : step s <;> simp [stepInstance, outcomeInBank, hrest, hstep]

/-- An edge of instance `k` leaves every other instance as it was (20_memory.md R31). -/
theorem stepInstance_getElem?_ne {bank bank' : List State} {j k : Nat} (h : stepInstance bank k = .next bank')
    (hjk : j ≠ k) : bank'[j]? = bank[j]? := by
  rcases stepInstance_eq_next_cases h with ⟨s, t, -, -, rfl⟩ | ⟨-, rfl⟩
  · exact List.getElem?_set_ne hjk.symm
  · rfl

end Sys2Proof.Machine

/-! # Settled: the statements of 20_memory.md -/

namespace Sys2Proof.Machine

/-- Settles O2: the frame word is the concatenation of its bytes and of its words, and its fields are bit fields. -/
theorem frameByteOrder : Obligations.FrameByteOrder := by
  refine ⟨?_, frameOfBytes_frameByte, fun f => ?_⟩
  · rintro b0 b1 b2 b3 f rfl
    obtain ⟨h0, h1, h2, h3⟩ := frameOfBytes_bytes b0 b1 b2 b3
    exact ⟨h0, h1, h2, h3, by rw [word1_frameOfBytes, BitVec.toNat_append],
      by rw [word2_frameOfBytes, BitVec.toNat_append]⟩
  · have hwords : f.toNat = (((word1 f).toNat <<< 16) ||| (word2 f).toNat) := by
      rw [← BitVec.toNat_append, word1_append_word2]
    exact ⟨rfl, rfl, hwords, frameExponent_eq_bits f, mantissaMsb_eq_bits f, mantissaLsb_eq_bits f, frameDiag_eq_bits f⟩

/-- Settles O39: the run shows the spec's step of each edge's ports, which is the decode of the accepted frame. -/
theorem resultsInOrderOfFrames : Obligations.ResultsInOrderOfFrames := by
  intro s ps rest h
  have hrun : outRun ps.length s = ps.map (fun p => (acceptedFrame p).map decodeFrame) := by
    rw [outRun_of_presents h, funext specStep_eq_map_acceptedFrame]
  refine ⟨fun k p hp => ?_, ?_, ?_⟩
  · rw [hrun, List.getElem?_map, hp, Option.map_some]
  · rw [hrun, List.length_map]
  · rw [collected, hrun, List.filterMap_map, List.map_filterMap, Function.id_comp]

/-- Settles O45: the edge is a step of its instance, whose outcome the bank takes, and the rest of the bank stands. -/
theorem instancesShareNothing : Obligations.InstancesShareNothing := by
  intro bank k s hs
  refine ⟨fun t ht => ?_, fun r hr => ?_, fun bank' hbank j hj => stepInstance_getElem?_ne hbank hj⟩
  · rw [stepInstance_eq_outcomeInBank hs, ht, outcomeInBank]
  · rw [stepInstance_eq_outcomeInBank hs, hr, outcomeInBank]

end Sys2Proof.Machine

/-! # Proofs: the cycle-command word, the trace text and the fields of a frame

The facts that the statements of 30_encoding.md rest on: the command word and its ports determine each other (R35), what
the decoder gives for each value of `cmd[33:32]` (R37), the step of the word that the host drives (R40), the reading of a
written trace line (R44), and what a DECODE shows of the fields of its frame (R39, R41, R42). -/

namespace Sys2Proof.Machine

/-! ## The command word and its ports -/

/-- The ports of a command word make the word (30_encoding.md R35). -/
theorem command_portsOfCommand (w : CommandWord) : (portsOfCommand w).command = w := by
  apply BitVec.eq_of_toNat_eq
  rw [command_toNat, portsOfCommand_rst_toNat, portsOfCommand_inValid_toNat, portsOfCommand_inFrame_toNat]
  omega

theorem command_injective : Function.Injective InputPorts.command :=
  Function.LeftInverse.injective portsOfCommand_command

/-- A one-bit field of a word is 1 exactly when its bit is set. -/
theorem extractLsb'_one_eq_one_iff {n : Nat} (x : BitVec n) (k : Nat) :
    x.extractLsb' k 1 = 1#1 ↔ x.getLsbD k = true := by
  rw [BitVec.eq_of_getLsbD_eq_iff]
  simp [BitVec.getLsbD_extractLsb']

theorem portsOfCommand_rst_eq_one {w : CommandWord} (h : w.getLsbD 33 = true) : (portsOfCommand w).rst = 1#1 :=
  (extractLsb'_one_eq_one_iff w 33).2 h

theorem portsOfCommand_inValid_eq_one {w : CommandWord} (h : w.getLsbD 32 = true) :
    (portsOfCommand w).inValid = 1#1 :=
  (extractLsb'_one_eq_one_iff w 32).2 h

theorem portsOfCommand_rst_eq_zero {w : CommandWord} (h : w.getLsbD 33 = false) : (portsOfCommand w).rst = 0#1 :=
  (bit_eq_zero_or_one _).resolve_right fun h1 =>
    Bool.false_ne_true (h.symm.trans ((extractLsb'_one_eq_one_iff w 33).1 h1))

theorem portsOfCommand_inValid_eq_zero {w : CommandWord} (h : w.getLsbD 32 = false) :
    (portsOfCommand w).inValid = 0#1 :=
  (bit_eq_zero_or_one _).resolve_right fun h1 =>
    Bool.false_ne_true (h.symm.trans ((extractLsb'_one_eq_one_iff w 32).1 h1))

/-! ## The decoder (30_encoding.md R37) -/

section
variable {w : CommandWord}

theorem decodeCommand_of_rst (hrst : (portsOfCommand w).rst = 1#1) : decodeCommand w = .reset := if_pos hrst

theorem decodeCommand_of_inValid (hrst : (portsOfCommand w).rst = 0#1) (hvalid : (portsOfCommand w).inValid = 1#1) :
    decodeCommand w = .decode (portsOfCommand w).inFrame := by
  simp [decodeCommand, hrst, hvalid]

theorem decodeCommand_of_idle (hrst : (portsOfCommand w).rst = 0#1) (hvalid : (portsOfCommand w).inValid = 0#1) :
    decodeCommand w = .idle := by
  simp [decodeCommand, hrst, hvalid]

end

/-- The decoder's three cases, by `rst` and `in_valid`. -/
theorem decodeCommand_cases (w : CommandWord) :
    ((portsOfCommand w).rst = 1#1 ∧ decodeCommand w = .reset) ∨
      ((portsOfCommand w).rst = 0#1 ∧ (portsOfCommand w).inValid = 1#1 ∧
        decodeCommand w = .decode (portsOfCommand w).inFrame) ∨
      ((portsOfCommand w).rst = 0#1 ∧ (portsOfCommand w).inValid = 0#1 ∧ decodeCommand w = .idle) := by
  rcases bit_eq_zero_or_one (portsOfCommand w).rst with hrst | hrst
  · rcases bit_eq_zero_or_one (portsOfCommand w).inValid with hvalid | hvalid
    · exact .inr (.inr ⟨hrst, hvalid, decodeCommand_of_idle hrst hvalid⟩)
    · exact .inr (.inl ⟨hrst, hvalid, decodeCommand_of_inValid hrst hvalid⟩)
  · exact .inl ⟨hrst, decodeCommand_of_rst hrst⟩

/-- A word that decodes to a DECODE has that operation's ports: DECODE ignores no bit (30_encoding.md R40). -/
theorem portsOfCommand_eq_of_decodeCommand {w : CommandWord} {f : Frame} (h : decodeCommand w = .decode f) :
    portsOfCommand w = encodePorts (.decode f) := by
  rcases decodeCommand_cases w with ⟨-, hw⟩ | ⟨hrst, hvalid, hw⟩ | ⟨-, -, hw⟩
  · cases hw.symm.trans h
  · cases hw.symm.trans h
    exact InputPorts.mk.injEq .. |>.mpr ⟨hrst, hvalid, rfl⟩
  · cases hw.symm.trans h

/-- Decoding the word of an operation gives the operation back, by the operation's own ports. -/
theorem decodeCommand_encode (i : Instr) : decodeCommand (encode i) = i := by
  have hports : portsOfCommand (encode i) = encodePorts i := portsOfCommand_command _
  cases i with
  | reset => exact decodeCommand_of_rst (by rw [hports]; rfl)
  | decode f => rw [decodeCommand_of_inValid (by rw [hports]; rfl) (by rw [hports]; rfl), hports]; rfl
  | idle => exact decodeCommand_of_idle (by rw [hports]; rfl) (by rw [hports]; rfl)

theorem encode_injective : Function.Injective encode := Function.LeftInverse.injective decodeCommand_encode

/-- A number that fits 34 bits is read as the command word of that value (30_encoding.md R43). -/
theorem decodeTableWord_of_lt (nbits : Nat) {w : Nat} (h : w < 2 ^ 34) :
    decodeTableWord nbits w = some (decodeCommand (BitVec.ofNat 34 w)) := by
  rw [decodeTableWord, decodeCommandNumber, if_pos (by simpa [commandNumberWellFormed] using h)]

/-- Every command word is read (30_encoding.md R40). -/
theorem decodeTableWord_toNat (nbits : Nat) (w : CommandWord) :
    decodeTableWord nbits w.toNat = some (decodeCommand w) := by
  rw [decodeTableWord_of_lt nbits w.isLt, BitVec.ofNat_toNat, BitVec.setWidth_eq]

/-! ## The rows of the opcode table -/

/-- A mask and pattern without a bit of `in_frame` compare `rst` and `in_valid` alone. -/
theorem and_command_eq_command_iff (w : CommandWord) (maskRst maskValid rst valid : BitVec 1) :
    w &&& (⟨maskRst, maskValid, 0#32⟩ : InputPorts).command = (⟨rst, valid, 0#32⟩ : InputPorts).command ↔
      (portsOfCommand w).rst &&& maskRst = rst ∧ (portsOfCommand w).inValid &&& maskValid = valid := by
  have hand : w &&& (⟨maskRst, maskValid, 0#32⟩ : InputPorts).command =
      (⟨(portsOfCommand w).rst &&& maskRst, (portsOfCommand w).inValid &&& maskValid, 0#32⟩ : InputPorts).command := by
    conv_lhs => rw [← command_portsOfCommand w]
    exact BitVec.and_append.trans (congrArg₂ (· ++ ·) BitVec.and_append BitVec.and_zero)
  rw [hand, command_injective.eq_iff, InputPorts.mk.injEq]
  simp

/-- A word meets the mask and pattern of a row exactly when it decodes to the row's kind. -/
theorem and_mask_eq_pattern_iff (w : CommandWord) {q : OpcodeRow} (hq : q ∈ opcodeRows) :
    w &&& q.mask = q.pattern ↔ q.kind = kindOf (decodeCommand w) := by
  simp only [opcodeRows, List.mem_cons, List.not_mem_nil, or_false] at hq
  rcases hq with rfl | rfl | rfl
  · refine (and_command_eq_command_iff w 1#1 0#1 1#1 0#1).trans ?_
    rcases decodeCommand_cases w with ⟨hrst, hw⟩ | ⟨hrst, hvalid, hw⟩ | ⟨hrst, hvalid, hw⟩
    all_goals simp [*, kindOf]
  · refine (and_command_eq_command_iff w 1#1 1#1 0#1 1#1).trans ?_
    rcases decodeCommand_cases w with ⟨hrst, hw⟩ | ⟨hrst, hvalid, hw⟩ | ⟨hrst, hvalid, hw⟩
    all_goals simp [*, kindOf]
  · refine (and_command_eq_command_iff w 1#1 1#1 0#1 0#1).trans ?_
    rcases decodeCommand_cases w with ⟨hrst, hw⟩ | ⟨hrst, hvalid, hw⟩ | ⟨hrst, hvalid, hw⟩
    all_goals simp [*, kindOf]

/-- Every kind of operation has a row. -/
theorem exists_opcodeRow (k : OpKind) : ∃ r ∈ opcodeRows, r.kind = k := by
  cases k
  all_goals simp [opcodeRows]

/-- No two rows are of the same kind. -/
theorem opcodeRow_eq_of_kind_eq : ∀ q ∈ opcodeRows, ∀ r ∈ opcodeRows, q.kind = r.kind → q = r := by decide

/-! ## The step of the word that the host drives -/

/-- Where no frame is presented the spec's step leaves nothing in `OUT`, whatever `rst` and `in_frame` are. -/
theorem specStep_of_inValid_eq_zero {p : InputPorts} (h : p.inValid = 0#1) : specStep p = none := by
  simp [specStep, h]

/-- The step reads the presented word and nothing of `OUT` or of what was listed for the edge. -/
theorem step_presentCommand (s : State) (w : CommandWord) :
    step (s.presentCommand w) = .next ⟨specStep (portsOfCommand w), s.inputs.tail, s.edge + 1⟩ :=
  step_of_sample_stable (s.sample_presentPorts _)

/-! ## The text of a trace line (30_encoding.md R44, log 11) -/

/-- A digit is none of the characters that are no digits. -/
theorem ne_of_isDigit {c d : Char} (hc : c.isDigit = true) (hd : d.isDigit = false) : c ≠ d := by
  rintro rfl
  exact Bool.false_ne_true (hd.symm.trans hc)

/-- The decimal digits before the colon are read as the number that they write. -/
theorem readCycleDigits_append_colon {ds : List Char} (h : ∀ c ∈ ds, c.isDigit = true) (acc : Nat)
    (rest : List Char) :
    readCycleDigits acc (ds ++ ':' :: rest) = some (Nat.ofDigitChars 10 ds acc, rest) := by
  induction ds generalizing acc with
  | nil => rfl
  | cons c ds ih =>
    have hc : c.isDigit = true := h c List.mem_cons_self
    have hcolon : c ≠ ':' := ne_of_isDigit hc rfl
    have hrange : '0' ≤ c ∧ c ≤ '9' :=
      (Bool.and_eq_true_iff.1 hc).imp of_decide_eq_true of_decide_eq_true
    rw [List.cons_append, readCycleDigits, if_neg hcolon, if_pos hrange, ih fun d hd => h d (.tail c hd),
      Nat.ofDigitChars_cons, Nat.mul_comm]
    rfl

/-- A text that begins with a digit is no trace line without a cycle number. -/
theorem readTraceLine_of_isDigit {c : Char} (h : c.isDigit = true) (cs : List Char) : readTraceLine (c :: cs) = none := by
  have hR : c ≠ 'R' := ne_of_isDigit h rfl
  have hI : c ≠ 'I' := ne_of_isDigit h rfl
  have hD : c ≠ 'D' := ne_of_isDigit h rfl
  simp [readTraceLine, hR, hI, hD]

theorem readHex_writeHexDigits_byte (b : Byte) (tail : List Char) :
    readHex 2 ('0' :: 'x' :: writeHexDigits 2 b.toNat tail) = some (b.toNat, tail) :=
  readHex_of_writeHexDigits 2 b.toNat tail b.isLt

/-- A written byte list is read back where the fuel covers its bytes. -/
theorem readByteList_writeByteList {bytes : List Byte} {fuel : Nat} (hne : bytes ≠ []) (hfuel : bytes.length ≤ fuel) :
    readByteList fuel (writeByteList bytes) = some bytes := by
  induction bytes generalizing fuel with
  | nil => exact absurd rfl hne
  | cons b bytes ih =>
    obtain ⟨fuel, rfl⟩ : ∃ k, fuel = k + 1 := ⟨fuel - 1, by simp at hfuel; omega⟩
    cases bytes with
    | nil => simp [writeByteList, readByteList, readHex_writeHexDigits_byte]
    | cons c bytes =>
      have hrest : readByteList fuel (writeByteList (c :: bytes)) = some (c :: bytes) :=
        ih (List.cons_ne_nil _ _) (by simpa using hfuel)
      simp [writeByteList, readByteList, readHex_writeHexDigits_byte, hrest]

/-- The line of a well-formed trace line is read back. -/
theorem readTraceLine_writeTraceLine {l : TraceLine} (h : l.wellFormed = true) :
    readTraceLine (writeTraceLine l) = some l := by
  cases l with
  | reset => rfl
  | idle => rfl
  | decodeWord f =>
    have hhex := readHex_of_writeHexDigits 8 f.toNat [] f.isLt
    simp [writeTraceLine, readTraceLine, hhex]
  | decodeBytes bytes =>
    have hlen : bytes.length = 4 := by simpa [TraceLine.wellFormed, frameBytesWellFormed] using h
    have hne : bytes ≠ [] := by rintro rfl; cases hlen
    simp [writeTraceLine, readTraceLine, readByteList_writeByteList hne hlen.le]

/-- The `n: ` before a line is read as the cycle number of the line after it. -/
theorem readNumberedTraceLine_toDigits_append (n : Nat) (cs : List Char) :
    readNumberedTraceLine (Nat.toDigits 10 n ++ ':' :: ' ' :: cs) = (readTraceLine cs).map (some n, ·) := by
  have hdigits : ∀ c ∈ Nat.toDigits 10 n, c.isDigit = true :=
    fun _ => Nat.isDigit_of_mem_toDigits (by decide) (by decide)
  have hread := readCycleDigits_append_colon hdigits 0 (' ' :: cs)
  rw [Nat.ofDigitChars_ten_toDigits] at hread
  obtain ⟨c, ds, hcons⟩ := List.exists_cons_of_ne_nil (Nat.toDigits_ne_nil (n := n) (b := 10))
  have hc : c.isDigit = true := hdigits c (by simp [hcons])
  have hcolon : c ≠ ':' := ne_of_isDigit hc rfl
  rw [hcons, List.cons_append] at hread ⊢
  simp [readNumberedTraceLine, readTraceLine_of_isDigit hc, hcolon, hread]

/-- A byte list makes a frame exactly when it has the four bytes of one (20_memory.md R24). -/
theorem isSome_frameOfByteList : ∀ bytes, (frameOfByteList bytes).isSome = frameBytesWellFormed bytes
  | [] | [_] | [_, _] | [_, _, _] | [_, _, _, _] => rfl
  | _ :: _ :: _ :: _ :: _ :: _ => by simp [frameOfByteList, frameBytesWellFormed]

/-! ## What a DECODE shows of its frame -/

/-- DECODE answers a next state whose outputs are the fields of the decode. -/
theorem exec_decode_outputs (f : Frame) (s : State) :
    ∃ t, exec (.decode f) s = .next t ∧
      t.outputs = ⟨1#1, some (decodeFrame f).exponent, some (decodeFrame f).mantissa, some (decodeFrame f).luxRaw,
        some (decodeFrame f).luxQ, some (decodeFrame f).diag⟩ :=
  ⟨s.writeOut (some (decodeFrame f)), rfl, outputsOf_some _⟩

/-- `out_exponent` is `in_frame[31:28]` (30_encoding.md R38). -/
theorem decodeFrame_exponent_eq_bits (f : Frame) : (decodeFrame f).exponent = f.extractLsb' 28 4 :=
  BitVec.eq_of_toNat_eq (by rw [decodeFrame_exponent_toNat, frameExponent_eq_bits])

/-- `out_mantissa` is `in_frame[27:8]` (30_encoding.md R38). -/
theorem decodeFrame_mantissa_eq_bits (f : Frame) : (decodeFrame f).mantissa = f.extractLsb' 8 20 :=
  BitVec.eq_of_toNat_eq (by rw [decodeFrame_mantissa_toNat, fullMantissa_eq, extractLsb'_toNat_eq_div_mod])

/-- `out_diag` is `in_frame[7:0]` (30_encoding.md R38). -/
theorem decodeFrame_diag_eq_bits (f : Frame) : (decodeFrame f).diag = f.extractLsb' 0 8 :=
  BitVec.eq_of_toNat_eq (by rw [decodeFrame_diag_toNat, frameDiag_eq_bits])

/-- `lux_raw` by the fields of the frame (40_decode.md R54). -/
theorem decodeFrame_luxRaw_eq_ofNat {f : Frame} {e m : Nat} (he : frameExponent f = e) (hm : fullMantissa f = m) :
    (decodeFrame f).luxRaw = BitVec.ofNat 35 (m * 2 ^ e) := by
  subst he hm
  exact congrArg (BitVec.ofNat 35) (luxRawOf_eq ..)

/-- Frames that agree above the diagnostic byte decode to the same record but for that byte (30_encoding.md R41). -/
theorem decodeFrame_with_diag_eq {f g : Frame} (h : f.extractLsb' 8 24 = g.extractLsb' 8 24) :
    { decodeFrame f with diag := (decodeFrame g).diag } = decodeFrame g := by
  have hupper : f.toNat / 2 ^ 8 = g.toNat / 2 ^ 8 := by
    have hbits := congrArg BitVec.toNat h
    rw [extractLsb'_toNat_eq_div_mod, extractLsb'_toNat_eq_div_mod] at hbits
    have := f.isLt
    have := g.isLt
    omega
  refine DecodeResult.Consistent.eq_of_fields ?_ (decodeFrame_consistent g) ?_ ?_ rfl
  · exact decodeFrame_consistent f
  · apply BitVec.eq_of_toNat_eq
    rw [decodeFrame_exponent_toNat, decodeFrame_exponent_toNat, frameExponent_eq, frameExponent_eq]
    omega
  · apply BitVec.eq_of_toNat_eq
    rw [decodeFrame_mantissa_toNat, decodeFrame_mantissa_toNat, fullMantissa_eq, fullMantissa_eq, hupper]

end Sys2Proof.Machine

/-! # Settled: the statements of 30_encoding.md -/

namespace Sys2Proof.Machine

/-- Settles O5: `decodeCommand` is a left inverse of `encode`, and a DECODE word is the command of its ports. -/
theorem decodeEncodeAgree : Obligations.DecodeEncodeAgree := by
  refine ⟨fun i => ?_, fun w f h => ?_, fun w v => encode_injective.eq_iff⟩
  · rw [decodeTableWord_toNat, decodeCommand_encode]
  · rw [encode, ← portsOfCommand_eq_of_decodeCommand h, command_portsOfCommand]

/-- Settles O3: a word meets a row exactly when it decodes to the row's kind, and each kind has one row. -/
theorem cycleOperationSelection : Obligations.CycleOperationSelection := by
  refine ⟨rfl, fun w => ⟨fun hrst => decodeCommand_of_rst (portsOfCommand_rst_eq_one hrst), fun hrst hvalid => ?_,
    fun hrst hvalid => ?_, ?_⟩⟩
  · exact decodeCommand_of_inValid (portsOfCommand_rst_eq_zero hrst) (portsOfCommand_inValid_eq_one hvalid)
  · exact decodeCommand_of_idle (portsOfCommand_rst_eq_zero hrst) (portsOfCommand_inValid_eq_zero hvalid)
  · obtain ⟨r, hr, hkind⟩ := exists_opcodeRow (kindOf (decodeCommand w))
    refine ⟨r, hr, hkind, fun q hq => ?_⟩
    rw [and_mask_eq_pattern_iff w hq, ← hkind]
    exact ⟨opcodeRow_eq_of_kind_eq q hq r hr, congrArg OpcodeRow.kind⟩

/-- Settles O4: the step reads the ports of the word, and both kinds of ports leave `OUT = none`. -/
theorem everyCommandWordLegal : Obligations.EveryCommandWordLegal := by
  refine ⟨fun w => ⟨decodeTableWord_toNat 40 w, fun s => ⟨_, step_presentCommand s w⟩⟩, fun w v hw hv s => ?_,
    fun w v _ hw _ hv s => ?_⟩
  · rw [step_presentCommand, step_presentCommand, specStep_of_rst (portsOfCommand_rst_eq_one hw),
      specStep_of_rst (portsOfCommand_rst_eq_one hv)]
  · rw [step_presentCommand, step_presentCommand, specStep_of_inValid_eq_zero (portsOfCommand_inValid_eq_zero hw),
      specStep_of_inValid_eq_zero (portsOfCommand_inValid_eq_zero hv)]

/-- Settles O8, by the line with and without a cycle number, and by the forms of a line. -/
theorem traceTextRoundTrip : Obligations.TraceTextRoundTrip := by
  refine ⟨fun n l hl => ?_, fun _ _ _ _ => rfl, fun l => ?_⟩
  · have hread := readTraceLine_writeTraceLine hl
    cases n with
    | none => simp only [writeNumberedTraceLine, readNumberedTraceLine, hread]
    | some n => rw [writeNumberedTraceLine, readNumberedTraceLine_toDigits_append, hread, Option.map_some]
  · cases l with
    | reset => rfl
    | idle => rfl
    | decodeWord f => rfl
    | decodeBytes bytes =>
      rw [instrOfTraceLine, Option.isSome_map, isSome_frameOfByteList, TraceLine.wellFormed]

/-- Settles O19: `lux_raw` by the two fields, which the outputs show as the frame's bits. -/
theorem nonCanonicalFramesKept : Obligations.NonCanonicalFramesKept := by
  refine ⟨fun f g hfe hfm hge hgm => ?_, fun f hm => ?_, fun f s => ?_⟩
  · exact ⟨decodeFrame_luxRaw_eq_ofNat hfe hfm, decodeFrame_luxRaw_eq_ofNat hge hgm⟩
  · rw [decodeFrame_luxRaw_eq_ofNat rfl hm, Nat.zero_mul]
  · obtain ⟨t, ht, hout⟩ := exec_decode_outputs f s
    refine ⟨t, ht, ?_, ?_⟩
    · rw [hout, decodeFrame_exponent_eq_bits]
    · rw [hout, decodeFrame_mantissa_eq_bits]

/-- Settles O20: the records of the two frames differ in the diagnostic byte alone. -/
theorem diagByteIsOpaque : Obligations.DiagByteIsOpaque := by
  refine ⟨fun f g h => ?_, fun f s => ?_⟩
  · rw [← decodeFrame_with_diag_eq h]
    exact ⟨rfl, rfl, rfl, rfl⟩
  · obtain ⟨t, ht, hout⟩ := exec_decode_outputs f s
    refine ⟨t, ht, ?_, ?_⟩
    · rw [hout]
    · rw [hout, decodeFrame_diag_eq_bits]

/-- Settles O1: the bits of a command word are the fields of its ports. -/
theorem commandWordIsItsPorts : Obligations.CommandWordIsItsPorts := by
  refine ⟨fun p => ?_, command_portsOfCommand⟩
  have hports := portsOfCommand_command p
  exact ⟨congrArg InputPorts.rst hports, congrArg InputPorts.inValid hports, congrArg InputPorts.inFrame hports, hports⟩

/-- Settles O26: after DECODE each data output shows a field of the decode. -/
theorem everyFrameLegal : Obligations.EveryFrameLegal := by
  intro f s
  obtain ⟨t, ht, hout⟩ := exec_decode_outputs f s
  refine ⟨t, ht, ?_⟩
  simp [hout]

/-- Settles O29: the ports that the host drives make the number's word again, and the step decodes that word. -/
theorem presentedWordRunsNext : Obligations.PresentedWordRunsNext := by
  intro s w hw
  refine ⟨_, decodeTableWord_of_lt 40 hw, State.presentCommand_out .., State.presentCommand_edge .., rfl, ?_⟩
  have hsample : (s.withFetchWord 40 w).sample = .stable (portsOfCommand (BitVec.ofNat 34 w)) :=
    s.sample_presentPorts _
  simp only [step, hsample, command_portsOfCommand]

end Sys2Proof.Machine

/-! # Proofs: the decode datapath and the DECODE and IDLE cycles

The facts that the statements of 40_decode.md rest on: the fields of the two words (R48 to R52), `lux_raw` as an exact
product with its bound (R54, R58), the lux value and `lux_q` as its floor with the remainder as the only error (R55 to
R57), and what a DECODE and an IDLE cycle leave in `OUT` (R46, R47). -/

namespace Sys2Proof.Machine

/-! ## The fields of the two words -/

/-- A bit field of `word1` stands 16 bits higher in the frame (40_decode.md R48). -/
theorem word1_extractLsb' (f : Frame) {start len : Nat} (h : start + len ≤ 16) :
    (word1 f).extractLsb' start len = f.extractLsb' (16 + start) len := by
  apply BitVec.eq_of_getLsbD_eq
  intro i hi
  have hword : start + i < 16 := by omega
  simp [word1, hi, hword, Nat.add_assoc]

/-- A bit field of `word2` stands at the same bits of the frame (40_decode.md R49). -/
theorem word2_extractLsb' (f : Frame) {start len : Nat} (h : start + len ≤ 16) :
    (word2 f).extractLsb' start len = f.extractLsb' start len :=
  BitVec.extractLsb'_extractLsb'_of_le h

theorem frameExponent_frameOfFields (e : BitVec 4) (m : BitVec 20) (d : BitVec 8) :
    frameExponent (frameOfFields e m d) = e.toNat := by
  rw [← decodeFrame_exponent_toNat, decodeFrame_frameOfFields_exponent]

theorem fullMantissa_frameOfFields (e : BitVec 4) (m : BitVec 20) (d : BitVec 8) :
    fullMantissa (frameOfFields e m d) = m.toNat := by
  rw [← decodeFrame_mantissa_toNat, decodeFrame_frameOfFields_mantissa]

/-- Replacing the diagnostic byte of a frame changes the diagnostic field alone (40_decode.md R52). -/
theorem decodeFrame_replaceDiag (f : Frame) (d : Byte) :
    decodeFrame (f.extractLsb' 8 24 ++ d) = { decodeFrame f with diag := d } := by
  have hupper : f.extractLsb' 8 24 = (f.extractLsb' 8 24 ++ d).extractLsb' 8 24 :=
    BitVec.extractLsb'_append_eq_left.symm
  have hdiag : (decodeFrame (f.extractLsb' 8 24 ++ d)).diag = d :=
    (decodeFrame_diag_eq_bits _).trans BitVec.extractLsb'_append_eq_right
  rw [← decodeFrame_with_diag_eq hupper, hdiag]

/-! ## `lux_raw`: an exact product that fits (40_decode.md R54, R58) -/

/-- The shift is greatest at the greatest mantissa and exponent that their fields hold. -/
theorem luxRawOf_le {m e : Nat} (hm : m < 2 ^ 20) (he : e < 2 ^ 4) : luxRawOf m e ≤ 0x7FFFF8000 :=
  calc luxRawOf m e = m * 2 ^ e := luxRawOf_eq m e
    _ ≤ (2 ^ 20 - 1) * 2 ^ 15 :=
      Nat.mul_le_mul (Nat.le_sub_one_of_lt hm) (Nat.pow_le_pow_right (by decide) (Nat.le_of_lt_succ he))

theorem luxRawOf_frame_le (f : Frame) : luxRawOf (fullMantissa f) (frameExponent f) ≤ 0x7FFFF8000 :=
  luxRawOf_le (fullMantissa_lt f) (frameExponent_lt f)

theorem decodeFrame_luxRaw_le (f : Frame) : (decodeFrame f).luxRaw.toNat ≤ 0x7FFFF8000 :=
  (decodeFrame_luxRaw_toNat f).trans_le (luxRawOf_frame_le f)

theorem decodeFrame_luxRaw_eq_mul (f : Frame) :
    (decodeFrame f).luxRaw.toNat = fullMantissa f * 2 ^ frameExponent f :=
  (decodeFrame_luxRaw_toNat f).trans (luxRawOf_eq ..)

/-- Within a consistent record `lux_raw` is zero exactly when the mantissa is (40_decode.md R59). -/
theorem DecodeResult.Consistent.luxRaw_eq_zero_iff {r : DecodeResult} (hr : r.Consistent) :
    r.luxRaw = 0#35 ↔ r.mantissa = 0#20 := by
  obtain ⟨hraw, -⟩ := hr
  rw [BitVec.toNat_eq, BitVec.toNat_eq, hraw]
  simp

theorem decodeFrame_luxRaw_max : (decodeFrame 0xFFFFFF00#32).luxRaw.toNat = 34359705600 := by decide

/-! ## `lux_q`: floor division by 125 (40_decode.md R56) -/

theorem luxQOf_mono : Monotone luxQOf :=
  fun _ _ h => Nat.div_le_div_right (Nat.mul_le_mul_right _ h)

/-- One unit of `lux_raw` is 28.672 units of `lux_q` (40_decode.md R59). -/
theorem le_luxQOf {r : Nat} (hr : 1 ≤ r) : 28 ≤ luxQOf r := luxQOf_mono hr

theorem luxQOf_eq_zero_iff (r : Nat) : luxQOf r = 0 ↔ r = 0 := by
  rw [luxQOf_eq]
  omega

theorem decodeFrame_luxQ_eq_luxQOf (f : Frame) :
    (decodeFrame f).luxQ.toNat = luxQOf (decodeFrame f).luxRaw.toNat :=
  (decodeFrame_consistent f).2

/-- The quotient over 16000, before 7 * 2^16 / 16000 is reduced (40_decode.md R56). -/
theorem luxQOf_eq_div_16000 (r : Nat) : luxQOf r = r * 7 * 2 ^ 16 / 16000 := by
  rw [luxQOf_eq]
  omega

/-- A product of 47 bits does not wrap for any value of 35 bits (40_decode.md R58). -/
theorem luxQ_network_toNat (r : BitVec 35) :
    (((r.setWidth 47 * 3584#47) / 125#47).setWidth 40 : BitVec 40).toNat = luxQOf r.toNat := by
  have hr := r.isLt
  have hproduct : (r.setWidth 47 * 3584#47).toNat = r.toNat * 3584 := by
    rw [BitVec.toNat_mul, BitVec.toNat_setWidth, BitVec.toNat_ofNat, Nat.mod_eq_of_lt (a := r.toNat) (by omega)]
    omega
  rw [BitVec.toNat_setWidth, BitVec.toNat_udiv, hproduct]
  exact Nat.mod_eq_of_lt (luxQOf_lt hr)

/-! ## The exact lux value (40_decode.md R55) -/

theorem luxOf_eq (r : Nat) : luxOf r = (r : Rat) * 7 / 16000 := by
  rw [luxOf, Config.luxLsb]
  ring

theorem luxOf_nonneg (r : Nat) : 0 ≤ luxOf r := by
  rw [luxOf_eq]
  positivity

/-- The greatest `lux_raw` is 15032371.2 lux (40_decode.md R55). -/
theorem luxOf_le {r : Nat} (h : r ≤ 0x7FFFF8000) : luxOf r ≤ 75161856 / 5 := by
  have hcast : (r : Rat) ≤ 0x7FFFF8000 := by exact_mod_cast h
  rw [luxOf_eq]
  linarith

theorem luxShownBy_eq (q : Nat) : luxShownBy q = (q : Rat) / 2 ^ 16 := by
  rw [luxShownBy, Config.luxFracBits]
  norm_num

/-- The lux value in units of `2^-16` is the fraction whose floor `lux_q` takes. -/
theorem luxOf_mul_two_pow (r : Nat) : luxOf r * 2 ^ 16 = ((r * 3584 : Nat) : Rat) / (125 : Nat) := by
  rw [luxOf_eq]
  push_cast
  ring

theorem floor_luxOf_mul_two_pow (r : Nat) : ⌊luxOf r * 2 ^ 16⌋ = (luxQOf r : Int) := by
  rw [luxOf_mul_two_pow, Rat.floor_natCast_div_natCast, luxQOf_eq, Int.natCast_ediv]

/-- What `lux_q` falls short by is the remainder of its division (40_decode.md R57). -/
theorem luxOf_sub_luxShownBy (r : Nat) :
    luxOf r - luxShownBy (luxQOf r) = ((r * 3584 % 125 : Nat) : Rat) / 125 / 2 ^ 16 := by
  have hdiv : ((125 * luxQOf r + r * 3584 % 125 : Nat) : Rat) = (r * 3584 : Nat) :=
    congrArg Nat.cast (Nat.div_add_mod (r * 3584) 125)
  rw [luxOf_eq, luxShownBy_eq]
  push_cast at hdiv ⊢
  linarith

theorem luxOf_sub_luxShownBy_nonneg (r : Nat) : 0 ≤ luxOf r - luxShownBy (luxQOf r) := by
  rw [luxOf_sub_luxShownBy]
  positivity

theorem luxOf_sub_luxShownBy_lt (r : Nat) : luxOf r - luxShownBy (luxQOf r) < 1 / 2 ^ 16 := by
  have hrem : ((r * 3584 % 125 : Nat) : Rat) < 125 := by exact_mod_cast Nat.mod_lt _ (by decide)
  rw [luxOf_sub_luxShownBy]
  linarith

/-- 125 and 3584 share no factor, so nothing remains exactly at the multiples of 125 (40_decode.md R57). -/
theorem luxShownBy_eq_luxOf_iff (r : Nat) : luxShownBy (luxQOf r) = luxOf r ↔ 125 ∣ r := by
  have hcoprime : Nat.Coprime 125 3584 := by decide
  calc luxShownBy (luxQOf r) = luxOf r
      ↔ luxOf r - luxShownBy (luxQOf r) = 0 := eq_comm.trans sub_eq_zero.symm
    _ ↔ r * 3584 % 125 = 0 := by simp [luxOf_sub_luxShownBy]
    _ ↔ 125 ∣ r := (Nat.dvd_iff_mod_eq_zero ..).symm.trans hcoprime.dvd_mul_right

/-- The value that `lux_q` shows is its integer bits 39:16 and its fraction bits 15:0 (40_decode.md R56). -/
theorem luxShownBy_eq_bits (q : BitVec 40) :
    luxShownBy q.toNat = ((q.extractLsb' 16 24).toNat : Rat) + ((q.extractLsb' 0 16).toNat : Rat) / 65536 := by
  have hbits : q.toNat = (q.extractLsb' 16 24).toNat * 65536 + (q.extractLsb' 0 16).toNat := by
    have := q.isLt
    rw [extractLsb'_toNat_eq_div_mod, extractLsb'_toNat_eq_div_mod]
    omega
  rw [luxShownBy_eq, hbits]
  push_cast
  ring

/-! ## The DECODE and IDLE cycles -/

section
variable {w : CommandWord}

/-- The word of a DECODE row is DECODE of its low 32 bits (40_decode.md R46). -/
theorem decodeCommand_of_decode_row (h : w &&& 0x300000000#34 = 0x100000000#34) :
    decodeCommand w = .decode (w.extractLsb' 0 32) := by
  obtain ⟨hrst, hvalid⟩ := (and_command_eq_command_iff w 1#1 1#1 0#1 1#1).1 h
  exact decodeCommand_of_inValid (BitVec.and_allOnes.symm.trans hrst) (BitVec.and_allOnes.symm.trans hvalid)

/-- The word of an IDLE row is IDLE (40_decode.md R47). -/
theorem decodeCommand_of_idle_row (h : w &&& 0x300000000#34 = 0x000000000#34) : decodeCommand w = .idle := by
  obtain ⟨hrst, hvalid⟩ := (and_command_eq_command_iff w 1#1 1#1 0#1 0#1).1 h
  exact decodeCommand_of_idle (BitVec.and_allOnes.symm.trans hrst) (BitVec.and_allOnes.symm.trans hvalid)

end

theorem specStep_of_decode {p : InputPorts} (hrst : p.rst = 0#1) (hvalid : p.inValid = 1#1) :
    specStep p = some (decodeFrame p.inFrame) := by
  simp [specStep, hrst, hvalid]

theorem specStep_idlePorts (f : Frame) : specStep (idlePorts f) = none := specStep_of_inValid_eq_zero rfl

/-- The step of the ports that the host drives reads nothing of `OUT` or of what was listed for the edge. -/
theorem step_presentPorts (s : State) (p : InputPorts) :
    step (s.presentPorts p) = .next ⟨specStep p, s.inputs.tail, s.edge + 1⟩ :=
  step_of_sample_stable (s.sample_presentPorts p)

/-- The outputs of the reference frame (40_decode.md R46). -/
theorem outputsOf_decodeFrame_reference :
    outputsOf (some (decodeFrame 0x07001020#32)) =
      ⟨1#1, some 0#4, some 0x70010#20, some 458768#35, some 13153796#40, some 0x20#8⟩ := by decide

end Sys2Proof.Machine

/-! # Settled: the statements of 40_decode.md -/

namespace Sys2Proof.Machine

/-- Settles O9: each bit operation of the datapath is the pseudocode's arithmetic on the frame word. -/
theorem decodeFunctionPseudocode : Obligations.DecodeFunctionPseudocode := by
  intro f word1 word2 exponent msb lsb diag mantissa luxRaw hword1 hword2 hexponent hmsb hlsb hdiag hmantissa hluxRaw
  have hf := f.isLt
  have he : frameExponent f = exponent := by rw [frameExponent_eq]; omega
  have hm : fullMantissa f = mantissa := by rw [fullMantissa_eq]; omega
  have hd : frameDiag f = diag := by rw [frameDiag_eq]; omega
  have hr : (decodeFrame f).luxRaw.toNat = luxRaw := by rw [decodeFrame_luxRaw_eq_mul, he, hm, hluxRaw]
  refine ⟨?_, ?_, hr, ?_, ?_⟩
  · rw [decodeFrame_exponent_toNat, he]
  · rw [decodeFrame_mantissa_toNat, hm]
  · rw [decodeFrame_luxQ_eq_luxQOf, hr, luxQOf_eq]
  · rw [decodeFrame_diag_toNat, hd]

/-- Settles O10: the fields of the words are bit fields of the frame, and a frame has any fields. -/
theorem frameFieldSteps : Obligations.FrameFieldSteps := by
  refine ⟨fun f => ?_, ?_, fun f h => ?_, fun e => ?_, decodeFrame_replaceDiag, fun f s => ?_⟩
  · refine ⟨rfl, rfl, rfl, Nat.le_of_lt_succ (frameExponent_lt f), ?_, decodeFrame_exponent_eq_bits f, ?_,
      mantissaMsb_eq_bits f, ?_, mantissaLsb_eq_bits f, ?_, decodeFrame_diag_eq_bits f, rfl, fullMantissa_eq_add f,
      Nat.le_of_lt_succ (fullMantissa_lt f), decodeFrame_mantissa_eq_bits f⟩
    · rw [word1_extractLsb' f (by decide), decodeFrame_exponent_eq_bits]
    · rw [word1_extractLsb' f (by decide), mantissaMsb_eq_bits]
    · rw [word2_extractLsb' f (by decide), mantissaLsb_eq_bits]
    · rw [word2_extractLsb' f (by decide), decodeFrame_diag_eq_bits]
  · rintro f rfl
    decide
  · rw [frameExponent, h]
    rfl
  · refine ⟨frameOfFields e 1#20 0#8, frameExponent_frameOfFields .., ?_, ?_⟩
    · rw [fullMantissa_frameOfFields]
      decide
    · rw [decodeFrame_luxRaw_toNat, frameExponent_frameOfFields, luxRawOf]
  · obtain ⟨t, ht, hout⟩ := exec_decode_outputs f s
    exact ⟨t, ht, by rw [hout, decodeFrame_diag_eq_bits]⟩

/-- Settles O11, by the product form of `lux_raw` and its bound. -/
theorem luxRawIsExactShift : Obligations.LuxRawIsExactShift := by
  refine ⟨fun f => ⟨decodeFrame_luxRaw_eq_mul f, decodeFrame_luxRaw_toNat f, decodeFrame_luxRaw_le f⟩,
    decodeFrame_luxRaw_max, fun f hm he => ?_, fun f hm he => ?_⟩
  · exact decodeFrame_luxRaw_eq_ofNat he hm
  · exact decodeFrame_luxRaw_eq_ofNat he hm

/-- Settles O13: the floor of the fraction is the quotient, in both of its forms. -/
theorem luxQIsFloorOfLux : Obligations.LuxQIsFloorOfLux := by
  refine ⟨fun f => ⟨?_, ?_, ?_, luxShownBy_eq_bits _⟩, by norm_num, by decide, fun f hr => ?_⟩
  · rw [floor_luxOf_mul_two_pow, decodeFrame_luxQ_eq_luxQOf]
  · rw [decodeFrame_luxQ_eq_luxQOf, luxQOf_eq_div_16000]
  · rw [decodeFrame_luxQ_eq_luxQOf, luxQOf_eq]
  · apply BitVec.eq_of_toNat_eq
    rw [decodeFrame_luxQ_eq_luxQOf, hr]
    rfl

/-- Settles O14: the error is the remainder of the division by 125, over `125 * 2^16`. -/
theorem luxQErrorBound : Obligations.LuxQErrorBound := by
  refine ⟨fun f => ?_, fun f hr => ?_⟩
  · rw [decodeFrame_luxQ_eq_luxQOf]
    exact ⟨luxOf_sub_luxShownBy_nonneg _, luxOf_sub_luxShownBy_lt _, luxShownBy_eq_luxOf_iff _⟩
  · rw [decodeFrame_luxQ_eq_luxQOf, hr, luxShownBy_eq]
    exact ⟨rfl, by norm_num [luxQOf_eq]⟩

/-- Settles O15: every value is below its width, so every field holds it and the 47-bit product does not wrap. -/
theorem datapathNeverOverflows : Obligations.DatapathNeverOverflows := by
  refine ⟨fun f => ?_, by decide⟩
  have hraw := luxRawOf_frame_le f
  refine ⟨Nat.le_of_lt_succ (frameExponent_lt f), Nat.le_of_lt_succ (fullMantissa_lt f), hraw,
    Nat.mul_le_mul_right 3584 hraw, luxQOf_mono hraw, decodeFrame_exponent_toNat f, decodeFrame_mantissa_toNat f,
    decodeFrame_luxRaw_toNat f, decodeFrame_luxQ_toNat f, decodeFrame_diag_toNat f, ?_⟩
  apply BitVec.eq_of_toNat_eq
  rw [luxQ_network_toNat, decodeFrame_luxQ_eq_luxQOf]

/-- Settles O16: neither the shift nor the scaling by 28.672 makes a zero. -/
theorem zeroLuxExactlyZeroMantissa : Obligations.ZeroLuxExactlyZeroMantissa := by
  refine ⟨fun f => ⟨(decodeFrame_consistent f).luxRaw_eq_zero_iff, ?_, fun hr => ?_, luxOf_nonneg _⟩, ?_⟩
  · rw [BitVec.toNat_eq, BitVec.toNat_eq, decodeFrame_luxQ_eq_luxQOf]
    exact luxQOf_eq_zero_iff _
  · rw [decodeFrame_luxQ_eq_luxQOf]
    exact le_luxQOf hr
  · have hzero : (decodeFrame (frameOfBytes 0#8 0#8 0#8 0#8)).luxRaw.toNat = 0 := by decide
    rw [hzero, luxOf, Nat.cast_zero, zero_mul]

/-- Settles O17: the factors of the exact product commute, and the division comes last in both orders. -/
theorem scaleFirstGivesSameLux : Obligations.ScaleFirstGivesSameLux := by
  refine fun f => ⟨?_, ?_⟩
  · rw [decodeFrame_luxRaw_eq_mul, luxOf]
    push_cast
    ring
  · rw [decodeFrame_luxQ_eq_luxQOf, luxQOf_eq, decodeFrame_luxRaw_eq_mul, Nat.shiftLeft_eq, Nat.mul_right_comm]

/-- Settles O18: the product is monotone in each factor, and the floor division in its dividend. -/
theorem luxMonotone : Obligations.LuxMonotone := by
  have hq : ∀ f g : Frame, (decodeFrame f).luxRaw ≤ (decodeFrame g).luxRaw →
      (decodeFrame f).luxQ ≤ (decodeFrame g).luxQ := by
    intro f g h
    rw [BitVec.le_def, decodeFrame_luxQ_eq_luxQOf, decodeFrame_luxQ_eq_luxQOf]
    exact luxQOf_mono h
  have hraw : ∀ f : Frame, (decodeFrame f).luxRaw.toNat =
      (decodeFrame f).mantissa.toNat * 2 ^ (decodeFrame f).exponent.toNat :=
    fun f => (decodeFrame_consistent f).1
  refine ⟨fun f g he hm => ?_, fun f g he hm => ?_, fun f g hm hne he => ?_, hq, by decide⟩
  · have hle : (decodeFrame f).luxRaw ≤ (decodeFrame g).luxRaw := by
      rw [BitVec.le_def, hraw, hraw, he]
      exact Nat.mul_le_mul_right _ hm
    exact ⟨hle, hq f g hle⟩
  · rw [BitVec.lt_def, hraw, hraw, he]
    exact Nat.mul_lt_mul_of_pos_right hm (Nat.two_pow_pos _)
  · have hpos : 0 < (decodeFrame g).mantissa.toNat :=
      Nat.pos_of_ne_zero fun h0 => hne (hm.trans (BitVec.eq_of_toNat_eq h0))
    rw [BitVec.lt_def, hraw, hraw, hm]
    exact Nat.mul_lt_mul_of_pos_left (Nat.pow_lt_pow_right (by decide) he) hpos

/-- Settles O22, by the spec's step of a DECODE edge and the run over two of them. -/
theorem decodeWritesResult : Obligations.DecodeWritesResult := by
  refine ⟨fun _ _ => rfl, fun w h => decodeCommand_of_decode_row h, fun s p hp hrst hvalid => ?_, fun f hm => ?_,
    fun s f g rest h => ?_, fun s => ⟨_, rfl, outputsOf_decodeFrame_reference⟩⟩
  · have hstep := step_of_sample_stable hp
    rw [specStep_of_decode hrst hvalid] at hstep
    exact ⟨_, hstep, rfl, rfl⟩
  · have hraw : (decodeFrame f).luxRaw = 0#35 := by rw [decodeFrame_luxRaw_eq_ofNat rfl hm, Nat.zero_mul]
    refine ⟨hraw, ?_, decodeFrame_exponent_eq_bits f, decodeFrame_diag_eq_bits f⟩
    apply BitVec.eq_of_toNat_eq
    rw [decodeFrame_luxQ_eq_luxQOf, hraw]
    rfl
  · exact outRun_of_presents (ps := [decodePorts f, decodePorts g]) h

/-- Settles O23, by the spec's step of an IDLE edge and the run over a DECODE and an IDLE. -/
theorem idleClearsResult : Obligations.IdleClearsResult := by
  refine ⟨fun _ => rfl, fun w h => decodeCommand_of_idle_row h, fun s p hp _ hvalid => ?_, fun s f g => ?_,
    fun s f rest h => ?_⟩
  · have hstep := step_of_sample_stable hp
    rw [specStep_of_inValid_eq_zero hvalid] at hstep
    exact ⟨_, hstep, rfl, rfl⟩
  · rw [step_presentPorts, step_presentPorts, specStep_idlePorts, specStep_idlePorts]
  · have hrun : outRun 2 s = [some (decodeFrame 0x07001020#32), none] :=
      outRun_of_presents (ps := [decodePorts 0x07001020#32, idlePorts f]) h
    rw [hrun, List.map_cons, outputsOf_decodeFrame_reference, List.map_cons, outputsOf_none, List.map_nil]

/-- Settles O12: the lux value by the exact scale, which DECODE's `out_lux_raw` recovers. -/
theorem luxIsExactRational : Obligations.LuxIsExactRational := by
  refine ⟨rfl, fun f => ⟨luxOf_eq _, luxOf_nonneg _, luxOf_le (decodeFrame_luxRaw_le f)⟩, ?_, fun f s => ?_,
    fun f hr => ?_⟩
  · rw [decodeFrame_luxRaw_max, luxOf_eq]
    norm_num
  · obtain ⟨t, ht, hout⟩ := exec_decode_outputs f s
    refine ⟨t, (decodeFrame f).luxRaw, ht, by rw [hout], ?_⟩
    rw [decodeFrame_luxRaw_eq_mul, luxOf_eq]
  · rw [hr, luxOf_eq]
    norm_num

end Sys2Proof.Machine

/-! # Proofs: the host's cycles and edges of two instances

The facts that the statements of 60_exceptions.md rest on: what the host presents for a bus read (R65, R66, R73), the
step of a RESET cycle that the host drives (R68), and the edge of one instance as a function of that instance alone
(R72). -/

namespace Sys2Proof.Machine

/-! ## The host's cycles -/

/-- A RESET edge reads nothing of `OUT` or of `in_valid` and `in_frame` (60_exceptions.md R68). -/
theorem step_presentPorts_of_rst (s : State) {p : InputPorts} (h : p.rst = 1#1) :
    step (s.presentPorts p) = .next ⟨none, s.inputs.tail, s.edge + 1⟩ := by
  rw [step_presentPorts, specStep_of_rst h]

/-- An IDLE edge reads nothing of `OUT` or of `in_frame` (40_decode.md R47). -/
theorem step_presentPorts_idlePorts (s : State) (filler : Frame) :
    step (s.presentPorts (idlePorts filler)) = .next ⟨none, s.inputs.tail, s.edge + 1⟩ := by
  rw [step_presentPorts, specStep_idlePorts]

theorem decodeCommand_idlePorts (filler : Frame) : decodeCommand (idlePorts filler).command = .idle := by
  apply decodeCommand_of_idle
  · rw [portsOfCommand_command, idlePorts]
  · rw [portsOfCommand_command, idlePorts]

/-- A read of exactly four bytes becomes the DECODE cycle of their frame (60_exceptions.md R73). -/
theorem portsForRead_four_bytes (b0 b1 b2 b3 : Byte) (filler : Frame) :
    portsForRead (some [b0, b1, b2, b3]) filler = decodePorts (frameOfBytes b0 b1 b2 b3) := rfl

/-- A failed, short or long read becomes an IDLE cycle (60_exceptions.md R65, R66). -/
theorem portsForRead_of_length_ne {read : Option (List Byte)} (h : ∀ bytes, read = some bytes → bytes.length ≠ 4)
    (filler : Frame) : portsForRead read filler = idlePorts filler := by
  rcases portsForRead_cases read filler with ⟨bytes, f, hread, hframe, -⟩ | ⟨-, hidle⟩
  · obtain ⟨b0, b1, b2, b3, rfl, -⟩ := (frameOfByteList_eq_some_iff bytes f).1 hframe
    exact absurd rfl (h _ hread)
  · exact hidle

/-! ## The edge of one instance in another bank -/

/-- An edge of an instance that is not there changes nothing (log 9). -/
theorem stepInstance_of_getElem?_eq_none {bank : List State} {k : Nat} (h : bank[k]? = none) :
    stepInstance bank k = .next bank := by
  induction bank generalizing k with
  | nil => rfl
  | cons s bank ih =>
    cases k with
    | zero => cases h
    | succ k =>
      have hrest : stepInstance bank k = .next bank := ih h
      simp [stepInstance, hrest]

/-- An edge that answers puts a state at place `k`, and the same state in every bank with the same instance `k`; where
there is no instance `k`, putting a state there changes nothing. -/
theorem exists_set_of_stepInstance_eq_next {bank bank' : List State} {k : Nat}
    (h : stepInstance bank k = .next bank') :
    ∃ t, bank' = bank.set k t ∧
      ∀ other : List State, other[k]? = bank[k]? → stepInstance other k = .next (other.set k t) := by
  rcases stepInstance_eq_next_cases h with ⟨s, t, hs, ht, rfl⟩ | ⟨hnone, rfl⟩
  · refine ⟨t, rfl, fun other hother => ?_⟩
    rw [stepInstance_eq_outcomeInBank (hother.trans hs), ht, outcomeInBank]
  · have hset : ∀ other : List State, other[k]? = none → other.set k State.reset = other :=
      fun other hother => List.set_eq_of_length_le (List.getElem?_eq_none_iff.1 hother)
    refine ⟨State.reset, (hset _ hnone).symm, fun other hother => ?_⟩
    have hother := hother.trans hnone
    rw [hset other hother, stepInstance_of_getElem?_eq_none hother]

end Sys2Proof.Machine

/-! # Settled: the statements of 60_exceptions.md -/

namespace Sys2Proof.Machine

/-- Settles O25: the two RESET edges answer the same state, so every run from there shows the same. -/
theorem resetDiscardsFrameAndResult : Obligations.ResetDiscardsFrameAndResult := by
  refine ⟨fun s f => ⟨_, step_presentPorts_of_rst s rfl, rfl⟩, fun s v f g n => ?_⟩
  have hleft : step ((s.writeOut v).presentPorts (resetPorts 1#1 f)) = .next ⟨none, s.inputs.tail, s.edge + 1⟩ :=
    step_presentPorts_of_rst (s.writeOut v) rfl
  have hright : step (s.presentPorts (resetPorts 1#1 g)) = .next ⟨none, s.inputs.tail, s.edge + 1⟩ :=
    step_presentPorts_of_rst s rfl
  rw [outRun_succ hleft, outRun_succ hright]

/-- Settles O33: there is no fault to answer, and a run over listed stable words reaches the state after them. -/
theorem noSequenceStops : Obligations.NoSequenceStops := by
  refine ⟨fun _ r => (nomatch r), fun s ws rest h => ?_⟩
  have hrun := run_of_presents h
  rw [List.length_map] at hrun
  exact ⟨_, hrun, rfl⟩

/-- Settles O44: the ports of the read are those of a DECODE or of an IDLE cycle, whose step is known. -/
theorem hostReadBecomesCycle : Obligations.HostReadBecomesCycle := by
  refine ⟨fun s b0 b1 b2 b3 filler => ?_, fun s read filler h => ?_⟩
  · rw [portsForRead_four_bytes, step_presentPorts, specStep_decodePorts]
    exact ⟨_, rfl, rfl, rfl⟩
  · rw [portsForRead_of_length_ne h]
    exact ⟨decodeCommand_idlePorts filler, _, step_presentPorts_idlePorts s filler, rfl, rfl⟩

/-- Settles O46: neither edge changes what the other reads, and states put at two places commute. -/
theorem instanceEdgesCommute : Obligations.InstanceEdgesCommute := by
  intro bank bankJ bankJK j k hjk hj hk
  have hsameK : bank[k]? = bankJ[k]? := (stepInstance_getElem?_ne hj hjk.symm).symm
  obtain ⟨t, rfl, hedgeJ⟩ := exists_set_of_stepInstance_eq_next hj
  obtain ⟨u, rfl, hedgeK⟩ := exists_set_of_stepInstance_eq_next hk
  refine ⟨bank.set k u, hedgeK bank hsameK, ?_⟩
  rw [hedgeJ (bank.set k u) (List.getElem?_set_ne hjk.symm), List.set_comm u t hjk.symm]

end Sys2Proof.Machine

/-! # Proofs: RESET cycles, completion and unstable inputs

The facts that the statements of 70_reset_and_hazards.md rest on: the words that are RESET (R77), the completion of every
operation (R81), and what the step answers where the inputs are not stable (R83). -/

namespace Sys2Proof.Machine

/-! ## The operations -/

theorem exec_reset (s : State) : exec .reset s = .next (s.writeOut none) := rfl

theorem exec_decode (f : Frame) (s : State) : exec (.decode f) s = .next (s.writeOut (some (decodeFrame f))) := rfl

/-- The later of two writes of `OUT` stands. -/
theorem State.writeOut_writeOut (s : State) (v w : Option DecodeResult) : (s.writeOut v).writeOut w = s.writeOut w := rfl

/-- Every operation completes (60_exceptions.md R64). -/
theorem exists_exec_eq_next (i : Instr) (s : State) : ∃ t, exec i s = .next t := by
  cases i with
  | reset => exact ⟨_, exec_reset s⟩
  | decode f => exact ⟨_, exec_decode f s⟩
  | idle => exact ⟨s.writeOut none, rfl⟩

/-! ## The RESET cycle (R77) -/

/-- The word of a RESET row is RESET. -/
theorem decodeCommand_of_reset_row {w : CommandWord} (h : w &&& 0x200000000#34 = 0x200000000#34) :
    decodeCommand w = .reset := by
  obtain ⟨hrst, -⟩ := (and_command_eq_command_iff w 1#1 0#1 1#1 0#1).1 h
  exact decodeCommand_of_rst (BitVec.and_allOnes.symm.trans hrst)

theorem specStep_resetPorts (v : BitVec 1) (f : Frame) : specStep (resetPorts v f) = none := specStep_of_rst rfl

/-- Reset that is held leaves `none` in `OUT` at every edge. -/
theorem map_specStep_of_rst {ps : List InputPorts} (h : ∀ p ∈ ps, p.rst = 1#1) :
    ps.map specStep = List.replicate ps.length none :=
  List.map_eq_replicate_iff.2 fun p hp => specStep_of_rst (h p hp)

/-! ## Inputs that are not stable (R83, log 6) -/

theorem step_of_sample_unstable {s : State} (h : s.sample = .unstable) : step s = .refused .unstableInputs := by
  simp only [step, h]

/-- No operation is refused, so a refusal is the step's own. -/
theorem step_eq_refused_iff {s : State} {r : Refusal} :
    step s = .refused r ↔ s.sample = .unstable ∧ r = .unstableInputs := by
  cases hs : s.sample with
  | stable p => simp [step_of_sample_stable hs]
  | unstable => simp [step_of_sample_unstable hs, eq_comm]

/-- Only a listed input is not stable: the free word of log 2 is. -/
theorem State.sample_eq_unstable_iff (s : State) : s.sample = .unstable ↔ ∃ rest, s.inputs = .unstable :: rest := by
  simp [s.sample_eq_iff]

end Sys2Proof.Machine

/-! # Settled: the statements of 70_reset_and_hazards.md -/

namespace Sys2Proof.Machine

/-- Settles O24, by the spec's step of a RESET edge, over one edge, two edges and any number of them. -/
theorem resetClearsResult : Obligations.ResetClearsResult := by
  refine ⟨exec_reset, fun w h => decodeCommand_of_reset_row h, fun s p hp hrst => ?_, fun s v w f g => ?_,
    fun s t h => ?_, fun s ps rest h hrst => ?_, fun s v f rest h => ?_⟩
  · have hstep := step_of_sample_stable hp
    rw [specStep_of_rst hrst] at hstep
    exact ⟨_, hstep, rfl, rfl⟩
  · rw [step_presentPorts_of_rst s rfl, step_presentPorts_of_rst s rfl]
  · obtain rfl : s.writeOut none = t := Host.Outcome.next.inj ((exec_reset s).symm.trans h)
    rw [exec_reset, State.writeOut_writeOut]
  · rw [outRun_of_presents h, map_specStep_of_rst hrst]
  · have hrun : outRun 2 s = [some (decodeFrame 0x07001020#32), none] :=
      outRun_of_presents (ps := [decodePorts 0x07001020#32, resetPorts v f]) h
    rw [hrun]
    rfl

/-- Settles O30: the value that the decoded operation writes is the spec's step of the sampled ports. -/
theorem stepRefinesSpecStep : Obligations.StepRefinesSpecStep :=
  ⟨fun _ _ hp => step_of_sample_stable hp, fun _ => rfl⟩

/-- Settles O40: the run ends with the spec's step of the last ports, the decode of the frame they carry, if any. -/
theorem runReachesLastShownResult : Obligations.RunReachesLastShownResult := by
  intro s ps p rest h
  have hrun := run_of_presents h
  rw [List.length_append, List.length_singleton, List.map_append, List.map_singleton, List.getLastD_concat,
    specStep_eq_map_acceptedFrame] at hrun
  exact ⟨_, hrun, rfl, rfl, rfl⟩

/-- Settles O42: the second step replaces the decode by the spec's step of its own ports. -/
theorem resultVisibleOneCycle : Obligations.ResultVisibleOneCycle := by
  intro s f p rest h
  have hpresents : s.Presents [decodePorts f, p] rest := h
  have hnext := hpresents.afterEdge (specStep (decodePorts f))
  exact ⟨_, _, step_of_sample_stable hpresents.sample_eq, specStep_decodePorts f,
    step_of_sample_stable hnext.sample_eq, specStep_of_rst, fun _ => specStep_of_inValid_eq_zero, specStep_of_decode⟩

/-- Settles O43: the run shows the spec's step of each DECODE edge, and no operation keeps DECODE from completing. -/
theorem frameEveryCycle : Obligations.FrameEveryCycle := by
  refine ⟨fun s fs rest h => ?_, fun i s f => ?_⟩
  · have hrun := outRun_of_presents h
    rw [List.length_map, List.map_map] at hrun
    exact hrun
  · obtain ⟨t, ht⟩ := exists_exec_eq_next i s
    exact ⟨t, _, ht, exec_decode f t, rfl⟩

/-- Settles O28: the decoded operation completes, and the step closes its edge. -/
theorem stepRunsDecodedOperation : Obligations.StepRunsDecodedOperation := by
  refine ⟨fun s p rest h => (s.sample_eq_iff _).2 (.inl ⟨rest, h⟩), fun s p hp => ?_⟩
  rw [step_of_sample_stable hp, exec_decodeCommand_command]
  rfl

/-- Settles O31: a refusal is the step's own, at an unstable sample, which is a listed one. -/
theorem onlyUnstableInputsRefused : Obligations.OnlyUnstableInputsRefused := by
  refine fun s => ⟨step_of_sample_unstable, fun r hr => ?_⟩
  obtain ⟨hsample, hrefusal⟩ := step_eq_refused_iff.1 hr
  exact ⟨hrefusal, s.sample_eq_unstable_iff.1 hsample⟩

end Sys2Proof.Machine

/-! # Proofs: numbers read as command words

What the decoder gives for a number by whether it fits the 34 bits of a command word (30_encoding.md R43, log 10), and
the number of a command word by what the word decodes to. -/

namespace Sys2Proof.Machine

section
variable {w : Nat}

/-- A number of more than 34 bits is rejected by name (log 10). -/
theorem decodeCommandNumber_of_le (h : 2 ^ 34 ≤ w) : decodeCommandNumber w = .error .wordTooWide := by
  rw [decodeCommandNumber, if_neg (by simpa [commandNumberWellFormed] using h)]

theorem decodeTableWord_of_le (nbits : Nat) (h : 2 ^ 34 ≤ w) : decodeTableWord nbits w = none := by
  rw [decodeTableWord, decodeCommandNumber_of_le h]

end

/-- The number of a command word is read as the operation that the word decodes to. -/
theorem decodeTableWord_toNat_of_decodeCommand (nbits : Nat) (w : CommandWord) {i : Instr} (h : decodeCommand w = i) :
    decodeTableWord nbits w.toNat = some i := by
  rw [decodeTableWord_toNat, h]

end Sys2Proof.Machine

/-! # Settled: the listed command words and the numbers that are too wide -/

namespace Sys2Proof.Machine

/-- Settles O7: a number is read by whether it fits 34 bits. -/
theorem overwideNumberRejected : Obligations.OverwideNumberRejected :=
  ⟨fun nbits _ hw => ⟨decodeCommandNumber_of_le hw, decodeTableWord_of_le nbits hw⟩,
    fun nbits _ hw => decodeTableWord_of_lt nbits hw⟩

/-- Settles O6: each listed word meets the mask and pattern of its row (30_encoding.md R37). -/
theorem listedWordsDecode : Obligations.ListedWordsDecode :=
  ⟨decodeTableWord_toNat_of_decodeCommand 40 0x000000000#34 (decodeCommand_of_idle_row rfl),
    decodeTableWord_toNat_of_decodeCommand 40 0x0FFFFFFFF#34 (decodeCommand_of_idle_row rfl),
    decodeTableWord_toNat_of_decodeCommand 40 0x107001020#34 (decodeCommand_of_decode_row rfl),
    decodeTableWord_toNat_of_decodeCommand 40 0x100000000#34 (decodeCommand_of_decode_row rfl),
    decodeTableWord_toNat_of_decodeCommand 40 0x200000000#34 (decodeCommand_of_reset_row rfl),
    decodeTableWord_toNat_of_decodeCommand 40 0x3FFFFFFFF#34 (decodeCommand_of_reset_row rfl)⟩

end Sys2Proof.Machine
